-- ==== Sys2Proof/Word.lean ====
section
/-! DEFINITION. The word types of the core and the spec's plainest notation for them: every port register, result
register, duration and carrier is one 32-bit word (R11 WORD), a key code is 8 bits (R78). -/

namespace Sys2Proof

/-- A 32-bit word: the width of every port register, result register, duration and carrier (R11, R51). -/
abbrev Word := BitVec 32

/-- An 8-bit key code, the index of the table space (R50, R78). -/
abbrev KeyCode := BitVec 8

/-- A pulse pattern under construction: durations in microseconds as exact integers, mark first (R13, R100, R101,
R105). Whether it is valid, and so fits the result registers, is checked where it is written (R104, R106). -/
abbrev Pattern := List Nat

end Sys2Proof
end

