-- ==== Sys2Proof/Config.lean ====
section
/-! DEFINITION. The configuration, fixed before reset and read-only afterwards: the command-entry table, N_APP and
MAX_PATTERN_LEN (R11, R20(a), R27 to R33), as plain data. What makes one well formed (R32) stands in
Machine/Configuration.lean. The one configuration that State.reset installs is `Config.reference` (log 2). -/

namespace Sys2Proof

/-- A Command Entry (R27), each field at the width R28 to R30 give it. Carriers are in Hz, UNIT and CDUR in microseconds. -/
inductive Entry where
  /-- TAG 0: no entry exists for the key (R31, C4). -/
  | empty
  /-- TAG 1: NEC parameters (R28). -/
  | nec (addr : BitVec 8) (cmd : BitVec 8) (carrier : Word)
  /-- TAG 2: SIRC-20 parameters (R29). -/
  | sirc (cmd : BitVec 7) (dev : BitVec 5) (ext : BitVec 8) (unit : Word) (carrier : Word)
  /-- TAG 3: a recorded pattern and its recorded carrier (R30). -/
  | captured (clen : Word) (cdur : List Word) (carrier : Word)
  deriving DecidableEq, Repr

/-- The table space of 256 slots (R27, R50), held as its non-EMPTY slots in rising key-code order; a slot that is not
listed is EMPTY (R31; log 6). -/
abbrev Table := List (KeyCode × Entry)

/-- The configuration (R20(a)). -/
structure Config where
  /-- TABLE (R27). -/
  table : Table
  /-- N_APP, the number of app-shortcut keys (R11). -/
  nApp : Nat
  /-- MAX_PATTERN_LEN, the capacity of PAT and the longest captured pattern (R11, R25). -/
  maxPatternLen : Nat
  deriving DecidableEq, Repr

/-- DESIGN CHOICE (log 2): the configuration that `State.reset` installs is CFG-T of 95_test_vectors.md B.4, the only
configuration the spec writes out in full. Its POWER entry is R181's. No statement rests on it. -/
def Config.reference : Config where
  table :=
    [(0x10, .nec 0x04 0x08 38000),
     (0x16, .sirc 0x12 0x01 0x00 600 40000),
     (0x1B, .captured 5 [3500, 1750, 450, 1300, 450] 36000),
     (0x40, .captured 2 [1000, 500] 38000)]
  nApp := 1
  maxPatternLen := 130

end Sys2Proof
end

