-- ==== Sys2Proof/Syntax.lean ====
section
/-! DEFINITION. The syntax: command keys (R77, R78), the four requests of spec/opcode_table.json as `Instr`, the five
words a request is carried in (R70), the reasons a request word is reserved (R81), and the assembler's lines (R82, R83). -/

namespace Sys2Proof

/-- The 14 named buttons, in the order of R77. -/
inductive Button where
  | power | dpadUp | dpadDown | dpadLeft | dpadRight | ok | volUp | volDown | chUp | chDown | home | back | mute | input
  deriving DecidableEq, Repr

/-- A command key: one member of the closed set of R77. APP_n exists under a configuration only when n < N_APP (R78). -/
inductive Key where
  | digit (d : Fin 10)
  | button (b : Button)
  | app (n : Fin 64)
  deriving DecidableEq, Repr

/-- The instructions, one constructor per row of spec/opcode_table.json. An operand is the whole 32-bit port word: the
operation masks it (R75, R76). Operand words an operation does not read (R74) are no part of it. -/
inductive Instr where
  /-- RESOLVE (R170). -/
  | resolve (key : Key)
  /-- ENC.NEC (R120): OPA holds addressByte, OPB commandByte. -/
  | encNec (opa opb : Word)
  /-- ENC.SIRC20 (R140): OPA holds command, OPB deviceAddress, OPC extendedAddress, OPD unitTimeUs. -/
  | encSirc20 (opa opb opc opd : Word)
  /-- ENC.SIRC (R150): OPA holds command, OPB address, OPC totalDataBits, OPD numCommandBits. -/
  | encSirc (opa opb opc opd : Word)
  deriving DecidableEq, Repr

/-- The five words of a request (R70). -/
structure Request where
  req : Word
  opa : Word
  opb : Word
  opc : Word
  opd : Word
  deriving DecidableEq, Repr

/-- Why a REQ word is a reserved encoding (R81). Each of them completes with the one status RESERVED_ENCODING. -/
inductive Reserved where
  /-- OP is 0x0 or 0x5 to 0xF. -/
  | opcode
  /-- RSV0, bits 7:4, is not 0. -/
  | rsv0
  /-- RSV1, bits 31:16, is not 0. -/
  | rsv1
  /-- KEY is not 0 and OP is not RESOLVE. -/
  | keyField
  /-- A RESOLVE with an unassigned key code (R79). -/
  | keyCode
  deriving DecidableEq, Repr

/-- The operand of an assembler RESOLVE line (R82): a key by its name, or `#<code>`. -/
inductive KeyArg where
  | name (k : Key)
  | code (c : Int)
  deriving DecidableEq, Repr

/-- One assembler line (R82), its operands integer literals, with the pseudo-instructions of R83 and `.req`. -/
inductive AsmLine where
  | resolve (k : KeyArg)
  | encNec (addr cmd : Int)
  | encSirc20 (cmd dev ext unit : Int)
  | encSirc (cmd addr total ncmd : Int)
  /-- `ENC.NEC <cmd>`. -/
  | encNecDefault (cmd : Int)
  /-- `ENC.SIRC20 <cmd>, <dev>, <ext>`. -/
  | encSirc20Default (cmd dev ext : Int)
  /-- `ENC.SIRC <cmd>, <addr>, <total>`. -/
  | encSircDefault (cmd addr total : Int)
  /-- `ENC.SIRC12 <cmd>, <addr>`. -/
  | encSirc12 (cmd addr : Int)
  /-- `ENC.SIRC15 <cmd>, <addr>`. -/
  | encSirc15 (cmd addr : Int)
  /-- `.req <w0>, <w1>, <w2>, <w3>, <w4>`. -/
  | req (w0 w1 w2 w3 w4 : Int)
  deriving DecidableEq, Repr

end Sys2Proof
end

