-- ==== Sys2Proof/WellFormed.lean ====
section
/-! DEFINITION. Well-formed keys and instructions. The only part of an instruction that can be ill formed is the number
of an app-shortcut key (R78): every operand word is legal (R75, R76). -/

namespace Sys2Proof

/-- A key exists under N_APP: APP_n only when n < N_APP (R78, R79). -/
def Key.wf (nApp : Nat) : Key → Bool
  | .digit _ => true
  | .button _ => true
  | .app n => decide (n.val < nApp)

/-- An instruction is well formed under N_APP (R73, R76, R79). -/
def Instr.wf (nApp : Nat) : Instr → Bool
  | .resolve key => key.wf nApp
  | .encNec _ _ => true
  | .encSirc20 _ _ _ _ => true
  | .encSirc _ _ _ _ => true

end Sys2Proof
end

