-- ==== Sys2Proof/Decode.lean ====
section
/-! DEFINITION. Decoding and encoding of requests: the fields of REQ (R71), key codes (R78, R79), legality (R73), the
decoder, total on any five words and rejecting by name (R81), the encoder after it (R71, R74, R82), and the mask and
match rows of the opcode table (R84). -/

namespace Sys2Proof

/-- REQ.OP, bits 3:0 (R71). -/
def Request.op (r : Request) : BitVec 4 := r.req.extractLsb' 0 4
/-- REQ.RSV0, bits 7:4 (R71). -/
def Request.rsv0 (r : Request) : BitVec 4 := r.req.extractLsb' 4 4
/-- REQ.KEY, bits 15:8 (R71). -/
def Request.key (r : Request) : KeyCode := r.req.extractLsb' 8 8
/-- REQ.RSV1, bits 31:16 (R71). -/
def Request.rsv1 (r : Request) : BitVec 16 := r.req.extractLsb' 16 16

/-- The key code of a named button (R78). -/
def Button.code : Button → KeyCode
  | .power => 0x10 | .dpadUp => 0x11 | .dpadDown => 0x12 | .dpadLeft => 0x13 | .dpadRight => 0x14
  | .ok => 0x15 | .volUp => 0x16 | .volDown => 0x17 | .chUp => 0x18 | .chDown => 0x19
  | .home => 0x1A | .back => 0x1B | .mute => 0x1C | .input => 0x1D

/-- The key code of a key (R78). -/
def Key.code : Key → KeyCode
  | .digit d => BitVec.ofNat 8 d.val
  | .button b => b.code
  | .app n => BitVec.ofNat 8 (0x40 + n.val)

/-- `KeyAssigned(k)` of R79. -/
def keyAssigned (nApp : Nat) (k : KeyCode) : Bool :=
  decide (k.toNat ≤ 0x09) || (decide (0x10 ≤ k.toNat) && decide (k.toNat ≤ 0x1D)) ||
    (decide (0x40 ≤ k.toNat) && decide (k.toNat < 0x40 + nApp))

/-- The button a key code names, by the table of R78. -/
def buttonOfCode (k : KeyCode) : Option Button :=
  match k.toNat with
  | 0x10 => some .power | 0x11 => some .dpadUp | 0x12 => some .dpadDown | 0x13 => some .dpadLeft
  | 0x14 => some .dpadRight | 0x15 => some .ok | 0x16 => some .volUp | 0x17 => some .volDown
  | 0x18 => some .chUp | 0x19 => some .chDown | 0x1A => some .home | 0x1B => some .back
  | 0x1C => some .mute | 0x1D => some .input
  | _ => none

/-- The key a key code names under N_APP, none where the code is reserved (R78, R79). -/
def keyOfCode (nApp : Nat) (k : KeyCode) : Option Key :=
  if h : k.toNat < 10 then some (.digit ⟨k.toNat, h⟩)
  else if h : 0x40 ≤ k.toNat ∧ k.toNat < 0x80 then
    if k.toNat < 0x40 + nApp then some (.app ⟨k.toNat - 0x40, by omega⟩) else none
  else (buttonOfCode k).map .button

/-- `Legal(REQ)` of R73. -/
def legal (nApp : Nat) (r : Request) : Bool :=
  (r.rsv1 == 0) && (r.rsv0 == 0) && (r.op == 1 || r.op == 2 || r.op == 3 || r.op == 4) &&
    (if r.op == 1 then keyAssigned nApp r.key else r.key == 0)

/-- The instruction a request with OP other than RESOLVE carries, provided its KEY field is 0 (R71, R81). -/
def withoutKey (r : Request) (i : Instr) : Except Reserved Instr :=
  if r.key = 0 then .ok i else .error .keyField

/-- The decoder (R70 to R74, R81): the instruction of five words, or the reason REQ is reserved. The operand words play
no part in the rejection, and an instruction keeps only those it reads (R74). -/
def decode (nApp : Nat) (r : Request) : Except Reserved Instr :=
  if r.rsv1 ≠ 0 then .error .rsv1
  else if r.rsv0 ≠ 0 then .error .rsv0
  else match r.op.toNat with
    | 1 => match keyOfCode nApp r.key with
      | some k => .ok (.resolve k)
      | none => .error .keyCode
    | 2 => withoutKey r (.encNec r.opa r.opb)
    | 3 => withoutKey r (.encSirc20 r.opa r.opb r.opc r.opd)
    | 4 => withoutKey r (.encSirc r.opa r.opb r.opc r.opd)
    | _ => .error .opcode

/-- The REQ word `OP | (KEY << 8)` with both reserved fields 0 (R71, R82). -/
def reqWord (op : BitVec 4) (key : KeyCode) : Word := (0#16) ++ key ++ (0#4) ++ op

/-- The encoder: the five words of an instruction (R70, R71, R72, R74). An operand word the operation does not read is
0 (R82). -/
def encode : Instr → Request
  | .resolve key => ⟨reqWord 1 key.code, 0, 0, 0, 0⟩
  | .encNec a b => ⟨reqWord 2 0, a, b, 0, 0⟩
  | .encSirc20 a b c d => ⟨reqWord 3 0, a, b, c, d⟩
  | .encSirc a b c d => ⟨reqWord 4 0, a, b, c, d⟩

/-- One row of R84's table. -/
structure OpcodeRow where
  mnemonic : String
  matchWord : Word
  mask : Word
  deriving DecidableEq, Repr

/-- The opcode table of R84. -/
def opcodeRows : List OpcodeRow :=
  [⟨"RESOLVE", 0x00000001, 0xFFFF00FF⟩, ⟨"ENC.NEC", 0x00000002, 0xFFFFFFFF⟩,
   ⟨"ENC.SIRC20", 0x00000003, 0xFFFFFFFF⟩, ⟨"ENC.SIRC", 0x00000004, 0xFFFFFFFF⟩]

/-- R84: the row matches the word, `(REQ & mask) == match`. -/
def OpcodeRow.matches (row : OpcodeRow) (req : Word) : Bool := req &&& row.mask == row.matchWord

/-- R84's row of an instruction, by its mnemonic. -/
def Instr.mnemonic : Instr → String
  | .resolve _ => "RESOLVE"
  | .encNec _ _ => "ENC.NEC"
  | .encSirc20 _ _ _ _ => "ENC.SIRC20"
  | .encSirc _ _ _ _ => "ENC.SIRC"

/-- The five request words in one number numbered as spec/opcode_table.json numbers it: bit 0 is bit 0 of REQ, and OPA
to OPD count on from it. Bits at `nbits` and above are 0. -/
def Request.ofBits (nbits w : Nat) : Request :=
  let v := w % 2 ^ nbits
  ⟨BitVec.ofNat 32 v, BitVec.ofNat 32 (v / 2 ^ 32), BitVec.ofNat 32 (v / 2 ^ 64), BitVec.ofNat 32 (v / 2 ^ 96),
    BitVec.ofNat 32 (v / 2 ^ 128)⟩

/-- What the decoder reads from a table word, under the N_APP of the configuration State.reset installs (log 2). -/
def decodeTableWord (nbits w : Nat) : Option Instr :=
  match decode Config.reference.nApp (Request.ofBits nbits w) with
  | .ok i => some i
  | .error _ => none

end Sys2Proof
end

