-- ==== Sys2Proof/Machine/State.lean ====
section
/-! DEFINITION. The state of the core, exactly the three groups of R20, with the host's script beside it (log 1); the
reasons a step can stop; and reset (R36, R230). -/

namespace Sys2Proof.Machine

/-- The five request port registers (R21). -/
inductive Port where
  | req | opa | opb | opc | opd
  deriving DecidableEq, Repr

/-- What the host can read (R22 to R25, R217). -/
inductive ResultReg where
  | status
  | carrier
  | len
  /-- PAT[i]. -/
  | pat (i : Nat)
  deriving DecidableEq, Repr

/-- The moves of the host between which a request or a reset is one atomic step (R54, R217, R232; log 1). The host has
no other move (R217). -/
inductive HostAction where
  /-- Write a port register (R21, R235). -/
  | write (p : Port) (v : Word)
  /-- Issue the request the port registers hold (R54). -/
  | issue
  /-- Read a result register (R55). -/
  | read (r : ResultReg)
  /-- Hand (RES_CARRIER, PAT[0..RES_LEN-1]) to the Transmitter (R109, R217, R218). -/
  | transmit
  /-- Reset the core (R230, R232). -/
  | reset
  deriving DecidableEq, Repr

/-- Why the machine stops with a fault. -/
inductive Fault where
  /-- Raised by fetching a request that reads a port register the host has not written since reset. The spec itself makes
  this a fault and allows no value in its place (R21, R235, C7, D19, I7, V-RST-3). Safe: no claim about the request can
  be made. -/
  | portUnwritten (p : Port)
  /-- Raised by `finish` for status OK with a pattern that is no valid pattern (R106, I16). Safe: the spec defines no
  chip value for it, and no well-formed configuration reaches it. -/
  | invalidPattern
  /-- Raised by the host's read of PAT at an index at or above MAX_PATTERN_LEN, where no element exists (R50, R56).
  Safe: there is nothing to go on with. -/
  | noSuchElement (i : Nat)
  deriving DecidableEq, Repr

/-- Why the model gives no meaning. -/
inductive Refusal where
  /-- For an arm of exec without a meaning; no arm is one. Safe: nothing is claimed of it. -/
  | notModelled (mnemonic : String)
  /-- Raised by every turn of a machine whose configuration is ill formed, and by configuring one: no model instance
  exists for it (R32, I8). Safe: no claim about an ill-formed table can be made. -/
  | illFormedConfiguration
  /-- Raised by the host's transmit move where R218 does not allow it: the model gives the host no such move (R217, I19).
  Safe for the core, which takes no part; no claim about a host that breaks its duty can be made (log 9). -/
  | transmitForbidden
  deriving DecidableEq, Repr

/-- A port register: its 32 bits, and whether the host has written it since reset (R21, R235). -/
structure PortReg where
  value : Word
  written : Bool
  deriving DecidableEq, Repr

/-- A port register after reset: unwritten. DESIGN CHOICE (log 3): the bits, which R36 leaves unspecified and no request
ever uses, are 0. -/
def PortReg.atReset : PortReg := ⟨0, false⟩

/-- The state (R20). -/
structure State where
  /-- TABLE, N_APP and MAX_PATTERN_LEN (R20(a), R27, R33). -/
  config : Config
  /-- REQ (R21). -/
  req : PortReg
  /-- OPA (R21). -/
  opa : PortReg
  /-- OPB (R21). -/
  opb : PortReg
  /-- OPC (R21). -/
  opc : PortReg
  /-- OPD (R21). -/
  opd : PortReg
  /-- RES_STATUS (R22). -/
  resStatus : Word
  /-- RES_CARRIER (R23). -/
  resCarrier : Word
  /-- RES_LEN (R24). -/
  resLen : Word
  /-- PAT, all its MAX_PATTERN_LEN elements (R25). -/
  pat : List Word
  /-- The model's own field (log 1): the moves the host has still to make. -/
  script : List HostAction
  deriving DecidableEq, Repr

/-- The machine right after reset with configuration `c` (R36, R230), the host having no move planned (log 1). -/
def State.resetWith (c : Config) : State where
  config := c
  req := PortReg.atReset
  opa := PortReg.atReset
  opb := PortReg.atReset
  opc := PortReg.atReset
  opd := PortReg.atReset
  resStatus := 0
  resCarrier := 0
  resLen := 0
  pat := List.replicate c.maxPatternLen 0
  script := []

/-- The machine right after reset with the configuration of log 2. -/
def State.reset : State := State.resetWith Config.reference

end Sys2Proof.Machine
end

