-- ==== Sys2Proof/Machine/Operands.lean ====
section
/-! DEFINITION. How each operation decodes its operand words (R12, R13, R75, R76), and which port registers a request
reads (R74). -/

namespace Sys2Proof.Machine

/-- `v[i]` for a value held in N bits, a bit at or above its width reading as 0 (R12). -/
def bitOf {n : Nat} (v : BitVec n) (i : Nat) : Bool := v.getLsbD i

/-- `sint32(w)` (R13). -/
def sint32 (w : Word) : Int := if w.getLsbD 31 then (w.toNat : Int) - 2 ^ 32 else w.toNat

/-- `v[7:0]`: addressByte, commandByte and extendedAddress (R76). -/
def low8 (w : Word) : BitVec 8 := w.extractLsb' 0 8

/-- `v[6:0]`: the SIRC-20 command (R76). -/
def low7 (w : Word) : BitVec 7 := w.extractLsb' 0 7

/-- `v[4:0]`: the SIRC-20 deviceAddress (R76). -/
def low5 (w : Word) : BitVec 5 := w.extractLsb' 0 5

/-- unitTimeUs, unsigned (R76). -/
def unitTime (w : Word) : Nat := w.toNat

/-- totalDataBits and numCommandBits, signed (R76, R152). -/
def bitCount (w : Word) : Int := sint32 w

/-- The operand port registers an instruction reads, by the table of R74. DEDUCED (log 4): an operand the table says is
read counts as read on every path of the operation. -/
def operandPorts : Instr → List Port
  | .resolve _ => []
  | .encNec _ _ => [.opa, .opb]
  | .encSirc20 _ _ _ _ => [.opa, .opb, .opc, .opd]
  | .encSirc _ _ _ _ => [.opa, .opb, .opc, .opd]

end Sys2Proof.Machine
end

