-- ==== Sys2Proof/Machine/Flags.lean ====
section
/-! DEFINITION. The one condition code of the core is RES_STATUS (R22, R34): its codes (R80) and the conditions that
decide which error an operation completes with (R201, R202, R206). There are no arithmetic flags (R34). -/

namespace Sys2Proof.Machine

/-- The names of R80's status codes. -/
inductive Status where
  | none | ok | invalidParameters | noPatternDefined | reservedEncoding
  deriving DecidableEq, Repr

/-- The code of a status (R80). -/
def Status.code : Status → Word
  | .none => 0
  | .ok => 1
  | .invalidParameters => 2
  | .noPatternDefined => 3
  | .reservedEncoding => 4

/-- SIRC_UNIT_MAX (R11): the largest unit time whose 4·T fits a word. -/
def sircUnitMax : Nat := 0x3FFFFFFF

/-- MAX_SIRC_TOTAL_BITS (R11). -/
def maxSircTotalBits : Int := 64

/-- R146: ENC.SIRC20 refuses the unit times 0 and above SIRC_UNIT_MAX. -/
def unitTimeInvalid (t : Nat) : Bool := decide (t = 0) || decide (sircUnitMax < t)

/-- R151, R153: ENC.SIRC refuses a negative numCommandBits, a negative numAddressBits and a totalDataBits above
MAX_SIRC_TOTAL_BITS. The subtraction is exact. -/
def bitCountsInvalid (total ncmd : Int) : Bool :=
  decide (ncmd < 0) || decide (total - ncmd < 0) || decide (maxSircTotalBits < total)

end Sys2Proof.Machine
end

