-- ==== Sys2Proof/Machine/Configuration.lean ====
section
/-! DEFINITION. What makes a configuration well formed (R32), the reading of the table space (R50), and the table
author's side of it: the NEC default carrier (R180) and adding an entry (R178). -/

namespace Sys2Proof

/-- `TABLE[k]`: the listed entry of slot k, EMPTY where none is listed (R27, R31). -/
def Table.lookup : Table → KeyCode → Entry
  | [], _ => .empty
  | (k', e) :: t, k => if k' = k then e else Table.lookup t k

/-- The model's canonical form of a table (log 6): key codes strictly rising, no EMPTY entry listed. -/
def Table.canonical : Table → Bool
  | [] => true
  | [(_, e)] => decide (e ≠ .empty)
  | (k, e) :: (k', e') :: t =>
    decide (e ≠ .empty) && decide (k.toNat < k'.toNat) && Table.canonical ((k', e') :: t)

/-- The table with slot k set to e, in canonical form when the table is: how a table's author adds or removes an entry
(R178). No request does (R179). -/
def Table.set : Table → KeyCode → Entry → Table
  | [], k, e => if e = .empty then [] else [(k, e)]
  | (k', e') :: t, k, e =>
    if k.toNat < k'.toNat then (if e = .empty then (k', e') :: t else (k, e) :: (k', e') :: t)
    else if k = k' then (if e = .empty then t else (k, e) :: t)
    else (k', e') :: Table.set t k e

/-- NEC_DEFAULT_CARRIER (R10), in Hz. -/
def necDefaultCarrier : Word := 38000

/-- A NEC entry whose author gives no carrier (R28, R180). -/
def Entry.necDefault (addr cmd : BitVec 8) : Entry := .nec addr cmd necDefaultCarrier

/-- Every field of an entry is within its legal values (R28, R29, R30); the widths are the types'. A captured pattern
has CLEN elements and is a valid pattern (R32(4), R104). -/
def Entry.wf (maxLen : Nat) : Entry → Bool
  | .empty => true
  | .nec _ _ carrier => decide (carrier ≠ 0)
  | .sirc _ _ _ unit carrier => !Machine.unitTimeInvalid unit.toNat && decide (carrier ≠ 0)
  | .captured clen cdur carrier =>
    decide (1 ≤ clen.toNat) && decide (clen.toNat ≤ maxLen) && decide (cdur.length = clen.toNat) &&
      cdur.all (fun d => decide (d ≠ 0)) && decide (carrier ≠ 0)

/-- A configuration is well formed: R32's clauses (1) to (4), over a table in canonical form (log 6). -/
def Config.wf (c : Config) : Bool :=
  decide (c.nApp ≤ 64) && decide (130 ≤ c.maxPatternLen) && c.table.canonical &&
    c.table.all (fun slot => keyAssigned c.nApp slot.1 && slot.2.wf c.maxPatternLen)

end Sys2Proof
end

