-- ==== Sys2Proof/Machine/Ops.lean ====
section
/-! DEFINITION. The named operations over the registers and the two indexed spaces: reading and writing a port register
(R21, R235), reading the table (R50, R172), the pattern invariant (R104), the completion of a request (R106), raising
an error (R15, R200), reading a result register (R55), and fetching the request the port holds (R54).
`raise` is the whole of taking an exception on this core: no state is saved, no mode changes and no vector is taken
(R200, R208), and there is no return from it (R209). -/

namespace Sys2Proof.Machine

/-- What a step, an instruction and a completion answer. -/
abbrev Result := Host.Outcome State Fault Refusal

/-! ## Port registers -/

/-- The port register p (R21). -/
def State.port (s : State) : Port → PortReg
  | .req => s.req
  | .opa => s.opa
  | .opb => s.opb
  | .opc => s.opc
  | .opd => s.opd

/-- The host writes v to port register p: it holds v, and counts as written since reset (R21, R235). -/
def State.writePort (s : State) (p : Port) (v : Word) : State :=
  match p with
  | .req => { s with req := ⟨v, true⟩ }
  | .opa => { s with opa := ⟨v, true⟩ }
  | .opb => { s with opb := ⟨v, true⟩ }
  | .opc => { s with opc := ⟨v, true⟩ }
  | .opd => { s with opd := ⟨v, true⟩ }

/-- The host writes all five port registers (R235). -/
def State.writeRequest (s : State) (r : Request) : State :=
  ((((s.writePort .req r.req).writePort .opa r.opa).writePort .opb r.opb).writePort .opc r.opc).writePort .opd r.opd

/-- The five words the port registers hold (R54, R70). -/
def State.request (s : State) : Request :=
  ⟨s.req.value, s.opa.value, s.opb.value, s.opc.value, s.opd.value⟩

/-! ## The two indexed spaces -/

/-- `MemRead(TABLE, k)` (R15, R50). -/
def State.tableRead (s : State) (k : KeyCode) : Entry := s.config.table.lookup k

/-- The contents Finish gives PAT: for every i below MAX_PATTERN_LEN, `P[i]` where i is below the length of P and 0 from
there on (R106). -/
def patBuffer (maxLen : Nat) (p : Pattern) : List Word :=
  (List.range maxLen).map (fun i => BitVec.ofNat 32 (p.getD i 0))

/-- The element PAT[i], none where no such element exists (R25, R50). -/
def State.patRead (s : State) (i : Nat) : Option Word :=
  if i < s.config.maxPatternLen then some (s.pat.getD i 0) else none

/-- The host's read of a result register: its word, none for an element that does not exist. It has no side effect
(R55). -/
def State.readResult (s : State) : ResultReg → Option Word
  | .status => some s.resStatus
  | .carrier => some s.resCarrier
  | .len => some s.resLen
  | .pat i => s.patRead i

/-! ## Completion -/

/-- A duration fits a result word and is positive (R102). -/
def validDuration (d : Nat) : Bool := decide (1 ≤ d) && decide (d ≤ 2 ^ 32 - 1)

/-- `ValidPattern(P)` of R104 for a buffer of `maxLen` elements. -/
def validPattern (maxLen : Nat) (p : Pattern) : Bool :=
  decide (1 ≤ p.length) && decide (p.length ≤ maxLen) && p.all validDuration

/-- The write of all result registers that Finish makes (R26, R106). -/
def State.writeResults (s : State) (st : Status) (carrier : Word) (p : Pattern) : State :=
  { s with
    resStatus := st.code
    resCarrier := if st = .ok then carrier else 0
    resLen := if st = .ok then BitVec.ofNat 32 p.length else 0
    pat := patBuffer s.config.maxPatternLen (if st = .ok then p else []) }

/-- `Finish(s, f, P)` (R106): writes all result registers. Status OK with a pattern that is not valid is a model fault
(R106, I16), and so is a pattern whose length does not fit the 32 bits of RES_LEN, since nothing wraps silently
(R13, R24; log 7). -/
def finish (st : Status) (carrier : Word) (p : Pattern) (s : State) : Result :=
  if st = .ok ∧ ¬ (validPattern s.config.maxPatternLen p = true ∧ p.length < 2 ^ 32) then .fault .invalidPattern
  else .next (s.writeResults st carrier p)

/-- `raise X()`, which is `Finish(X, 0, [])` (R15, R200): the one shared operation by which a request takes an error. -/
def raise (st : Status) (s : State) : Result := finish st 0 [] s

/-- The end of a request whose encoder gave a pattern or raised (R107, R170). -/
def complete (carrier : Word) (r : Except Status Pattern) (s : State) : Result :=
  match r with
  | .ok p => finish .ok carrier p s
  | .error st => raise st s

/-! ## Fetching the request -/

/-- The first of the ports that the host has not written since reset. -/
def State.firstUnwritten (s : State) (ps : List Port) : Option Port := ps.find? (fun p => !(s.port p).written)

/-- The request the port registers hold, as they stand at issue (R54): a fault where a register the request reads has
not been written since reset (R21, R235, D19, I7, V-RST-3), the reason where REQ is reserved, which is decided before any
operand is read (R206), else the instruction. -/
def fetch (s : State) : Except Fault (Except Reserved Instr) :=
  match s.firstUnwritten [.req] with
  | some p => .error (.portUnwritten p)
  | none =>
    match decode s.config.nApp s.request with
    | .error why => .ok (.error why)
    | .ok i =>
      match s.firstUnwritten (operandPorts i) with
      | some p => .error (.portUnwritten p)
      | none => .ok (.ok i)

end Sys2Proof.Machine
end

