-- ==== Sys2Proof/Machine/Nec.lean ====
section
/-! DEFINITION. The NEC encoder and ENC.NEC (R120 to R130). -/

namespace Sys2Proof.Machine

/-- NEC_HDR_MARK (R10, R121). -/
def necHdrMark : Nat := 9000
/-- NEC_HDR_SPACE (R10, R121). -/
def necHdrSpace : Nat := 4500
/-- NEC_BIT_MARK (R10, R123). -/
def necBitMark : Nat := 560
/-- NEC_ZERO_SPACE (R10, R123). -/
def necZeroSpace : Nat := 560
/-- NEC_ONE_SPACE (R10, R123). -/
def necOneSpace : Nat := 1690
/-- NEC_STOP_MARK (R10, R124). -/
def necStopMark : Nat := 560

/-- One NEC bit: a mark, then a space that carries the bit (R123). -/
def necBit (b : Bool) : Pattern := [necBitMark, if b then necOneSpace else necZeroSpace]

/-- One NEC byte, least-significant bit first (R122). -/
def necByte (byte : BitVec 8) : Pattern := (List.range 8).flatMap (fun i => necBit (bitOf byte i))

/-- The frame of an address byte and a command byte (R120 to R124). -/
def necFrame (a c : BitVec 8) : Pattern :=
  [necHdrMark, necHdrSpace] ++ [a, ~~~a, c, ~~~c].flatMap necByte ++ [necStopMark]

/-- `EncNec(OPA, OPB)` (R120): the operand words masked to 8 bits (R126). -/
def encNecPattern (opa opb : Word) : Pattern := necFrame (low8 opa) (low8 opb)

/-- ENC.NEC (R107, R120): it never fails (R127) and pairs no carrier (R23). -/
def execEncNec (opa opb : Word) (s : State) : Result := finish .ok 0 (encNecPattern opa opb) s

end Sys2Proof.Machine
end

