-- ==== Sys2Proof/Machine/Sirc.lean ====
section
/-! DEFINITION. The SIRC encoders, ENC.SIRC20 (R140 to R148) and the generalised ENC.SIRC (R150 to R158). -/

namespace Sys2Proof.Machine

/-- One SIRC bit at unit time t: a mark that carries the bit, then a space of 1·T (R143). -/
def sircBit (t : Nat) (b : Bool) : Pattern := [if b then 2 * t else t, t]

/-- The bits 0..w-1 of a field, least-significant first (R142, R154). -/
def sircField {n : Nat} (t : Nat) (v : BitVec n) (w : Nat) : Pattern :=
  (List.range w).flatMap (fun i => sircBit t (bitOf v i))

/-- The start bit (R141). -/
def sircStart (t : Nat) : Pattern := [4 * t, t]

/-- The SIRC-20 frame of its three fields (R141, R142). -/
def sirc20Frame (t : Nat) (cmd : BitVec 7) (dev : BitVec 5) (ext : BitVec 8) : Pattern :=
  sircStart t ++ sircField t cmd 7 ++ sircField t dev 5 ++ sircField t ext 8

/-- `EncSirc20(OPA, OPB, OPC, OPD)` (R140): the unit time is checked (R146), the fields are masked (R145). -/
def encSirc20Pattern (opa opb opc opd : Word) : Except Status Pattern :=
  if unitTimeInvalid (unitTime opd) then .error .invalidParameters
  else .ok (sirc20Frame (unitTime opd) (low7 opa) (low5 opb) (low8 opc))

/-- SIRC_GEN_UNIT_US (R11, R154). -/
def sircGenUnit : Nat := 600

/-- The frame of the generalised variant (R154). -/
def sircFrame (cmd addr : Word) (ncmd naddr : Nat) : Pattern :=
  sircStart sircGenUnit ++ sircField sircGenUnit cmd ncmd ++ sircField sircGenUnit addr naddr

/-- `EncSirc(OPA, OPB, OPC, OPD)` (R150): the counts are signed and their difference exact (R151, R152). -/
def encSircPattern (opa opb opc opd : Word) : Except Status Pattern :=
  if bitCountsInvalid (bitCount opc) (bitCount opd) then .error .invalidParameters
  else .ok (sircFrame opa opb (bitCount opd).toNat (bitCount opc - bitCount opd).toNat)

/-- ENC.SIRC20 (R107, R140). It pairs no carrier (R23). -/
def execEncSirc20 (opa opb opc opd : Word) (s : State) : Result :=
  complete 0 (encSirc20Pattern opa opb opc opd) s

/-- ENC.SIRC (R107, R150). It pairs no carrier (R23). -/
def execEncSirc (opa opb opc opd : Word) (s : State) : Result :=
  complete 0 (encSircPattern opa opb opc opd) s

end Sys2Proof.Machine
end

