-- ==== Sys2Proof/Machine/Mapper.lean ====
section
/-! DEFINITION. The command mapper and RESOLVE (R170 to R182). -/

namespace Sys2Proof.Machine

/-- The recorded durations CDUR[0..CLEN-1], verbatim (R175). -/
def capturedPattern (clen : Word) (cdur : List Word) : Pattern := (cdur.take clen.toNat).map BitVec.toNat

/-- The dispatch of RESOLVE on the entry it read (R170, R173 to R176). A NEC or SIRC entry runs the encoder of ENC.NEC or
ENC.SIRC20 on its fields, zero-extended to operand words. -/
def resolveEntry (e : Entry) (s : State) : Result :=
  match e with
  | .empty => raise .noPatternDefined s
  | .nec addr cmd carrier => finish .ok carrier (encNecPattern (addr.setWidth 32) (cmd.setWidth 32)) s
  | .sirc cmd dev ext unit carrier =>
    complete carrier (encSirc20Pattern (cmd.setWidth 32) (dev.setWidth 32) (ext.setWidth 32) unit) s
  | .captured clen cdur carrier => finish .ok carrier (capturedPattern clen cdur) s

/-- RESOLVE (R170): one table read (R172), then the dispatch. No operand word is read (R74). -/
def execResolve (key : Key) (s : State) : Result := resolveEntry (s.tableRead key.code) s

end Sys2Proof.Machine
end

