-- ==== Sys2Proof/Machine/Dispatch.lean ====
section
/-! DEFINITION. The dispatch of R107: one meaning per instruction. -/

namespace Sys2Proof.Machine

def exec (i : Instr) (s : State) : Host.Outcome State Fault Refusal :=
  match i with
  | .resolve key => Sys2Proof.Machine.execResolve key s
  | .encNec opa opb => Sys2Proof.Machine.execEncNec opa opb s
  | .encSirc20 opa opb opc opd => Sys2Proof.Machine.execEncSirc20 opa opb opc opd s
  | .encSirc opa opb opc opd => Sys2Proof.Machine.execEncSirc opa opb opc opd s

end Sys2Proof.Machine
end

