-- ==== Sys2Proof/Machine/HostPort.lean ====
section
/-! DEFINITION. The host interface (R217): configuring (R230, R233), issuing a request (R107), the hand-off to the
Transmitter (R109, R218), one turn of the host's script, and placing a request where the next turn issues it. -/

namespace Sys2Proof.Machine

/-- Configuring and resetting a core (R230, R233): an ill-formed configuration is refused (R32). -/
def configure (c : Config) : Result :=
  if c.wf then .next (State.resetWith c) else .refused .illFormedConfiguration

/-- One request, `Execute` of R107 on the port registers as they stand: a reserved encoding is raised (R81), anything
else is executed. -/
def issue (s : State) : Result :=
  match fetch s with
  | .error f => .fault f
  | .ok (.error _) => raise .reservedEncoding s
  | .ok (.ok i) => exec i s

/-- A reset of a running core (R232): the configuration is installed again, the result registers take their reset
values, the port registers are unwritten again. The host keeps the moves it has still to make (log 10). -/
def State.hostReset (s : State) : State := { State.resetWith s.config with script := s.script }

/-- What the host may hand to the Transmitter: (RES_CARRIER, PAT[0..RES_LEN-1]) when RES_STATUS = OK and RES_CARRIER is
not 0, else nothing (R109, R218). -/
def State.handOff (s : State) : Option (Word × List Word) :=
  if s.resStatus = Status.ok.code ∧ s.resCarrier ≠ 0 then some (s.resCarrier, s.pat.take s.resLen.toNat) else none

/-- One move of the host (R217). -/
def act (a : HostAction) (s : State) : Result :=
  match a with
  | .write p v => .next (s.writePort p v)
  | .issue => issue s
  | .read r =>
    match r with
    | .pat i => if i < s.config.maxPatternLen then .next s else .fault (.noSuchElement i)
    | .status => .next s
    | .carrier => .next s
    | .len => .next s
  | .transmit => if s.handOff.isSome then .next s else .refused .transmitForbidden
  | .reset => .next s.hostReset

/-- The next turn (log 1): the host makes the first move of its script, or the core waits for a request (R230) where the
script is empty. A core with an ill-formed configuration does not exist (R32; log 5). -/
def turn (s : State) : Result :=
  if s.config.wf then
    match s.script with
    | [] => .next s
    | a :: rest => act a { s with script := rest }
  else .refused .illFormedConfiguration

/-- The moves by which the host issues one request, having written all five port registers (R235). -/
def requestMoves (r : Request) : List HostAction :=
  [.write .req r.req, .write .opa r.opa, .write .opb r.opb, .write .opc r.opc, .write .opd r.opd, .issue]

/-- The script of a program, the requests the host issues in order (95_test_vectors.md C). -/
def programScript (rs : List Request) : List HostAction := rs.flatMap requestMoves

/-- The request r in the port registers, written by the host, and its issue the host's next move. -/
def State.loadRequest (s : State) (r : Request) : State :=
  let t := s.writeRequest r
  { t with script := .issue :: t.script }

end Sys2Proof.Machine
end

