-- ==== Sys2Proof/Machine/Step.lean ====
section
/-! DEFINITION. One step of the machine, and placing a request where the next step issues it. -/

namespace Sys2Proof.Machine

/-- One step: the next turn of the host's script. -/
def step (s : State) : Host.Outcome State Fault Refusal := turn s

/-- The request whose bits, numbered as spec/opcode_table.json numbers them, are w, written to the port registers and
issued by the next step. -/
def State.withFetchWord (s : State) (nbits w : Nat) : State := s.loadRequest (Request.ofBits nbits w)

end Sys2Proof.Machine
end

