-- ==== Sys2Proof/Machine/Assembler.lean ====
section
/-! DEFINITION. The assembler of R82 and the pseudo-instructions of R83: reading one line of text, the five words a line
assembles to, and the requests of a program. Which keys have a name depends on N_APP (R78), so the assembler takes it.
The core itself has no defaults (R83). -/

namespace Sys2Proof.Machine

/-! ## Words -/

/-- An integer literal as its 32-bit two's-complement word; one outside -2^31..2^32-1 is an assembler error (R82). -/
def literalWord (n : Int) : Option Word :=
  if -2 ^ 31 ≤ n ∧ n ≤ 2 ^ 32 - 1 then some (BitVec.ofInt 32 n) else none

/-- The key code an assembler key operand stands for: the code of a key that exists under N_APP (R78), or a raw code
0..255, the only way to write a reserved one (R82). DEDUCED (log 17): the name of a key that does not exist is an error. -/
def keyArgCode (nApp : Nat) : KeyArg → Option KeyCode
  | .name k => if k.wf nApp then some k.code else none
  | .code c => if 0 ≤ c ∧ c ≤ 255 then some (BitVec.ofInt 8 c) else none

/-- NEC_DEFAULT_ADDRESS (R10, R83). -/
def necDefaultAddress : Int := 0x04
/-- SIRC_DEFAULT_UNIT (R10, R83). -/
def sircDefaultUnit : Int := 600
/-- SIRC_DEFAULT_NCMD (R10, R83). -/
def sircDefaultNcmd : Int := 7

/-- The expansion of a pseudo-instruction; any other line is its own (R83). -/
def expand : AsmLine → AsmLine
  | .encNecDefault cmd => .encNec necDefaultAddress cmd
  | .encSirc20Default cmd dev ext => .encSirc20 cmd dev ext sircDefaultUnit
  | .encSircDefault cmd addr total => .encSirc cmd addr total sircDefaultNcmd
  | .encSirc12 cmd addr => .encSirc cmd addr 12 7
  | .encSirc15 cmd addr => .encSirc cmd addr 15 7
  | .resolve k => .resolve k
  | .encNec addr cmd => .encNec addr cmd
  | .encSirc20 cmd dev ext unit => .encSirc20 cmd dev ext unit
  | .encSirc cmd addr total ncmd => .encSirc cmd addr total ncmd
  | .req w0 w1 w2 w3 w4 => .req w0 w1 w2 w3 w4

/-- The five words of an expanded line: REQ is `OP | (KEY << 8)`, an operand the operation does not read is 0 (R82). -/
def assembleExpanded (nApp : Nat) : AsmLine → Option Request
  | .resolve k => do return ⟨reqWord 1 (← keyArgCode nApp k), 0, 0, 0, 0⟩
  | .encNec addr cmd => do return ⟨reqWord 2 0, ← literalWord addr, ← literalWord cmd, 0, 0⟩
  | .encSirc20 cmd dev ext unit => do
    return ⟨reqWord 3 0, ← literalWord cmd, ← literalWord dev, ← literalWord ext, ← literalWord unit⟩
  | .encSirc cmd addr total ncmd => do
    return ⟨reqWord 4 0, ← literalWord cmd, ← literalWord addr, ← literalWord total, ← literalWord ncmd⟩
  | .req w0 w1 w2 w3 w4 => do
    return ⟨← literalWord w0, ← literalWord w1, ← literalWord w2, ← literalWord w3, ← literalWord w4⟩
  | .encNecDefault _ => none
  | .encSirc20Default _ _ _ => none
  | .encSircDefault _ _ _ => none
  | .encSirc12 _ _ => none
  | .encSirc15 _ _ => none

/-- The five words a line assembles to under N_APP, none for an assembler error (R82, R83). -/
def assemble (nApp : Nat) (l : AsmLine) : Option Request := assembleExpanded nApp (expand l)

/-! ## Text -/

/-- A blank between the parts of a line. -/
def isBlank (c : Char) : Bool := c == ' ' || c == '\t'

/-- A piece of text without the blanks around it. -/
def trimBlanks (t : List Char) : List Char :=
  ((t.dropWhile isBlank).reverse.dropWhile isBlank).reverse

/-- The pieces of a text between its commas. -/
def splitCommas : List Char → List (List Char)
  | [] => [[]]
  | c :: t =>
    if c = ',' then [] :: splitCommas t
    else match splitCommas t with
      | [] => [[c]]
      | p :: ps => (c :: p) :: ps

/-- The value of a digit character in a base, none where it is no digit of that base. -/
def digitValue (base : Nat) (c : Char) : Option Nat :=
  let v :=
    if '0' ≤ c ∧ c ≤ '9' then some (c.toNat - '0'.toNat)
    else if 'a' ≤ c ∧ c ≤ 'f' then some (c.toNat - 'a'.toNat + 10)
    else if 'A' ≤ c ∧ c ≤ 'F' then some (c.toNat - 'A'.toNat + 10)
    else none
  v.filter (fun d => decide (d < base))

/-- The digits of a numeral in a base, added to the value read so far. -/
def digitsValue (base : Nat) : Nat → List Char → Option Nat
  | acc, [] => some acc
  | acc, c :: t => do digitsValue base (base * acc + (← digitValue base c)) t

/-- A numeral with at least one digit. -/
def numeral (base : Nat) : List Char → Option Nat
  | [] => none
  | c :: t => digitsValue base 0 (c :: t)

/-- An unsigned literal: decimal, `0x` hexadecimal or `0b` binary (R82). -/
def parseNat : List Char → Option Nat
  | '0' :: 'x' :: t => numeral 16 t
  | '0' :: 'b' :: t => numeral 2 t
  | t => numeral 10 t

/-- An integer literal, a leading `-` allowed (R82). -/
def parseInt : List Char → Option Int
  | '-' :: t => (parseNat t).map (fun n => -(n : Int))
  | t => (parseNat t).map Int.ofNat

/-- The names of the buttons (R78). -/
def buttonNames : List (List Char × Button) :=
  [("POWER".toList, .power), ("DPAD_UP".toList, .dpadUp), ("DPAD_DOWN".toList, .dpadDown),
   ("DPAD_LEFT".toList, .dpadLeft), ("DPAD_RIGHT".toList, .dpadRight), ("OK".toList, .ok), ("VOL_UP".toList, .volUp),
   ("VOL_DOWN".toList, .volDown), ("CH_UP".toList, .chUp), ("CH_DOWN".toList, .chDown), ("HOME".toList, .home),
   ("BACK".toList, .back), ("MUTE".toList, .mute), ("INPUT".toList, .input)]

/-- The digit key of one decimal digit. -/
def parseDigitKey : List Char → Option Key
  | [c] => (digitValue 10 c).bind (fun d => if h : d < 10 then some (.digit ⟨d, h⟩) else none)
  | _ => none

/-- The app key of a decimal number below 64, the most N_APP can be (R78). Whether the key exists is `keyArgCode`'s. -/
def parseAppKey (t : List Char) : Option Key :=
  (numeral 10 t).bind (fun n => if h : n < 64 then some (.app ⟨n, h⟩) else none)

/-- What stands after the text `p` at the head of `t`. -/
def afterText (p t : List Char) : Option (List Char) := if p.isPrefixOf t then some (t.drop p.length) else none

/-- A key operand: `#<code>`, a bare digit, `DIGIT_<d>`, `APP_<n>` or a button's name (R82). -/
def parseKeyArg (t : List Char) : Option KeyArg :=
  match t with
  | '#' :: n => (parseNat n).map (fun c => .code (Int.ofNat c))
  | _ =>
    (parseDigitKey t <|> (afterText "DIGIT_".toList t).bind parseDigitKey <|>
      (afterText "APP_".toList t).bind parseAppKey <|> (buttonNames.lookup t).map Key.button).map KeyArg.name

/-- The line of a mnemonic and its integer operands (R82, R83). -/
def lineOf (mnemonic : List Char) (ops : List Int) : Option AsmLine :=
  if mnemonic = "ENC.NEC".toList then
    match ops with
    | [a, c] => some (.encNec a c)
    | [c] => some (.encNecDefault c)
    | _ => none
  else if mnemonic = "ENC.SIRC20".toList then
    match ops with
    | [c, d, e, u] => some (.encSirc20 c d e u)
    | [c, d, e] => some (.encSirc20Default c d e)
    | _ => none
  else if mnemonic = "ENC.SIRC".toList then
    match ops with
    | [c, a, t, n] => some (.encSirc c a t n)
    | [c, a, t] => some (.encSircDefault c a t)
    | _ => none
  else if mnemonic = "ENC.SIRC12".toList then
    match ops with
    | [c, a] => some (.encSirc12 c a)
    | _ => none
  else if mnemonic = "ENC.SIRC15".toList then
    match ops with
    | [c, a] => some (.encSirc15 c a)
    | _ => none
  else if mnemonic = ".req".toList then
    match ops with
    | [w0, w1, w2, w3, w4] => some (.req w0 w1 w2 w3 w4)
    | _ => none
  else none

/-- What a line holds beside its comment. DEDUCED (log 14): blanks around it and everything from `;` on are ignored, as the
programs of 95_test_vectors.md write them. -/
def lineText (text : List Char) : List Char := trimBlanks (text.takeWhile (fun c => c != ';'))

/-- One line of text: a mnemonic, then its operands separated by commas (R82). -/
def parseLine (text : List Char) : Option AsmLine :=
  let t := lineText text
  let mnemonic := t.takeWhile (fun c => !isBlank c)
  let operands := (splitCommas (t.dropWhile (fun c => !isBlank c))).map trimBlanks
  if mnemonic = "RESOLVE".toList then
    match operands with
    | [k] => (parseKeyArg k).map .resolve
    | _ => none
  else (operands.mapM parseInt).bind (lineOf mnemonic)

/-- The five words of one line of text that holds a request, none for an assembler error. DESIGN CHOICE (log 16): R82 says
nothing of a blank or comment-only line; taken by itself it holds no request, and the answer is none here too. -/
def assembleText (nApp : Nat) (text : List Char) : Option Request := (parseLine text).bind (assemble nApp)

/-- The requests of a program, line by line (95_test_vectors.md C), none where a line is an assembler error. DEDUCED
(log 16): a blank or comment-only line assembles to nothing and is no error, as the programs there hold such lines. -/
def assembleProgram (nApp : Nat) : List (List Char) → Option (List Request)
  | [] => some []
  | l :: ls =>
    if lineText l = [] then assembleProgram nApp ls
    else do return (← assembleText nApp l) :: (← assembleProgram nApp ls)

end Sys2Proof.Machine
end

