-- ==== Sys2Proof/Safety.lean ====
section
/-! DEFINITION. What a good state is, in the terms the statements use: a well-formed configuration (R32) and result
registers that read as R22 to R25 say they always do. -/

namespace Sys2Proof.Machine

/-- The words RES_STATUS can hold (R22, R80). -/
def statusWords : List Word := [0, 1, 2, 3, 4]

/-- The result registers as R22 to R25 have them after reset and after every request: RES_STATUS is one of R80's codes;
PAT has MAX_PATTERN_LEN elements; with status OK, RES_LEN is 1 to MAX_PATTERN_LEN and every element below it is a
positive duration, else RES_LEN and RES_CARRIER are 0; and every element from RES_LEN on is 0. -/
def State.ResultsGood (s : State) : Prop :=
  s.resStatus ∈ statusWords ∧
  s.pat.length = s.config.maxPatternLen ∧
  (s.resStatus = Status.ok.code →
    1 ≤ s.resLen.toNat ∧ s.resLen.toNat ≤ s.config.maxPatternLen ∧ ∀ i, i < s.resLen.toNat → s.pat.getD i 0 ≠ 0) ∧
  (s.resStatus ≠ Status.ok.code → s.resLen = 0 ∧ s.resCarrier = 0) ∧
  (∀ i, s.resLen.toNat ≤ i → s.pat.getD i 0 = 0)

/-- The invariant of the machine: a well-formed configuration and good result registers. -/
def State.Good (s : State) : Prop := s.config.wf = true ∧ s.ResultsGood

end Sys2Proof.Machine
end

