-- ==== Sys2Proof/Certificates/Slice0/Obligations.lean ====
section
/-! DEFINITION. The statements for the provers. Each docstring says which rule of spec/ it formalises. The vocabulary
they share comes first, written from the rules and not from the model's own functions. -/

namespace Sys2Proof.Says

open Sys2Proof.Machine

/-! ## Vocabulary -/

/-- What the host reads from the result registers: status code (R80), carrier, length, and every element of PAT, `elem i`
below the length and 0 from there on (R25). -/
def ResultIs (t : State) (status : Nat) (carrier : Word) (len : Nat) (elem : Nat → Nat) : Prop :=
  (∃ w, t.readResult .status = some w ∧ w.toNat = status) ∧
  t.readResult .carrier = some carrier ∧
  (∃ w, t.readResult .len = some w ∧ w.toNat = len) ∧
  ∀ i, i < t.config.maxPatternLen →
    ∃ w, t.readResult (.pat i) = some w ∧ w.toNat = if i < len then elem i else 0

/-- The result of a request that fails with a status code: carrier 0, length 0, every element of PAT 0 (R200). -/
def ErrorIs (t : State) (status : Nat) : Prop := ResultIs t status 0 0 (fun _ => 0)

/-- The frame of a request: the configuration, the port registers and the host's script are as before. -/
def OnlyResultsChanged (s t : State) : Prop :=
  t.config = s.config ∧ t.req = s.req ∧ t.opa = s.opa ∧ t.opb = s.opb ∧ t.opc = s.opc ∧ t.opd = s.opd ∧
    t.script = s.script

/-- Every result register holds the same value in both states. -/
def SameResults (t u : State) : Prop :=
  t.resStatus = u.resStatus ∧ t.resCarrier = u.resCarrier ∧ t.resLen = u.resLen ∧ t.pat = u.pat

/-- Byte j of a NEC frame for address a and command c below 256: [a, ~a, c, ~c] (R122), a complement being 255 minus the
byte (R13). -/
def necByteOf (a c : Nat) : Nat → Nat
  | 0 => a
  | 1 => 255 - a
  | 2 => c
  | _ => 255 - c

/-- Element i of a NEC frame: the header (R121), the stop mark and every other mark 560 (R123, R124), and the space of
bit i of byte j at index 3 + 16j + 2i (R122, R123). -/
def necElem (a c i : Nat) : Nat :=
  if i = 0 then 9000
  else if i = 1 then 4500
  else if i % 2 = 0 then 560
  else if (necByteOf a c ((i - 3) / 16)).testBit ((i - 3) / 2 % 8) then 1690 else 560

/-- Element i of a SIRC frame at unit time T whose data bit n is `bit n`: the start bit (R141), then for each bit a mark
of 2T or T and a space of T (R143). -/
def sircElem (T : Nat) (bit : Nat → Bool) (i : Nat) : Nat :=
  if i = 0 then 4 * T else if i % 2 = 1 then T else if bit ((i - 2) / 2) then 2 * T else T

/-- Data bit n of a SIRC-20 frame: command bits 0..6, device bits 0..4, extended-address bits 0..7 (R142). -/
def sirc20Bit (cmd dev ext : Nat) (n : Nat) : Bool :=
  if n < 7 then cmd.testBit n else if n < 12 then dev.testBit (n - 7) else ext.testBit (n - 12)

/-- Data bit n of a generalised frame with ncmd command bits: the command bits, then the address bits (R154). -/
def sircBitOf (cmd addr ncmd : Nat) (n : Nat) : Bool :=
  if n < ncmd then cmd.testBit n else addr.testBit (n - ncmd)

/-- `KeyAssigned(k)` of R79, on numbers. -/
def KeyCodeAssigned (nApp k : Nat) : Prop :=
  k ≤ 0x09 ∨ (0x10 ≤ k ∧ k ≤ 0x1D) ∨ (0x40 ≤ k ∧ k < 0x40 + nApp)

/-- `Legal(REQ)` of R73, on the number REQ. -/
def LegalReq (nApp req : Nat) : Prop :=
  req / 2 ^ 16 = 0 ∧ req / 16 % 16 = 0 ∧ (req % 16 = 1 ∨ req % 16 = 2 ∨ req % 16 = 3 ∨ req % 16 = 4) ∧
    if req % 16 = 1 then KeyCodeAssigned nApp (req / 256 % 256) else req / 256 % 256 = 0

/-- The legal values of an entry's fields (R28, R29, R30), with the Pulse Pattern invariant of a captured one (R104). -/
def EntryLegal (maxLen : Nat) : Entry → Prop
  | .empty => True
  | .nec _ _ carrier => 1 ≤ carrier.toNat
  | .sirc _ _ _ unit carrier => 1 ≤ unit.toNat ∧ unit.toNat ≤ 0x3FFFFFFF ∧ 1 ≤ carrier.toNat
  | .captured clen cdur carrier =>
    1 ≤ clen.toNat ∧ clen.toNat ≤ maxLen ∧ cdur.length = clen.toNat ∧ (∀ d ∈ cdur, 1 ≤ d.toNat) ∧ 1 ≤ carrier.toNat

/-- R32's four clauses, slot by slot. -/
def ConfigLegal (c : Config) : Prop :=
  c.nApp ≤ 64 ∧ 130 ≤ c.maxPatternLen ∧
    (∀ k, ¬ KeyCodeAssigned c.nApp k.toNat → c.table.lookup k = .empty) ∧
    ∀ k, EntryLegal c.maxPatternLen (c.table.lookup k)

/-- The host's next move is a, and `rest` are the moves after it. -/
def NextMove (s : State) (a : HostAction) (rest : List HostAction) : Prop :=
  s.config.wf = true ∧ s.script = a :: rest

end Sys2Proof.Says

open Sys2Proof Sys2Proof.Machine Sys2Proof.Says

/-! ## Encoding -/

/-- Decoding the encoded words of a well-formed instruction gives it back, with every operand at every value (R70 to
R72, R74, R82). -/
def Obligations.DecodeOfEncode : Prop :=
  ∀ (nApp : Nat) (i : Instr), i.wf nApp = true → decode nApp (encode i) = .ok i

/-- R73: with N_APP in its range, the decoder accepts exactly the legal REQ words, whatever the operand words. -/
def Obligations.DecoderAcceptsExactlyLegalWords : Prop :=
  ∀ (nApp : Nat) (r : Request), nApp ≤ 64 → ((∃ i, decode nApp r = .ok i) ↔ LegalReq nApp r.req.toNat)

/-- R84 with R74: which REQ word decodes to which instruction, and which operand words it keeps. -/
def Obligations.DecodingFollowsOpcodeTable : Prop :=
  ∀ (nApp : Nat) (r : Request),
    (∀ key, decode nApp r = .ok (.resolve key) ↔ key.wf nApp = true ∧ r.req.toNat = 1 + 256 * key.code.toNat) ∧
    (∀ a b, decode nApp r = .ok (.encNec a b) ↔ r.req.toNat = 2 ∧ a = r.opa ∧ b = r.opb) ∧
    (∀ a b c d, decode nApp r = .ok (.encSirc20 a b c d) ↔
      r.req.toNat = 3 ∧ a = r.opa ∧ b = r.opb ∧ c = r.opc ∧ d = r.opd) ∧
    (∀ a b c d, decode nApp r = .ok (.encSirc a b c d) ↔
      r.req.toNat = 4 ∧ a = r.opa ∧ b = r.opb ∧ c = r.opc ∧ d = r.opd)

/-- R78, R79: with N_APP in its range, the assigned codes are the codes of the keys that exist; no two keys share a code;
digits and buttons have the codes R78 lists. -/
def Obligations.KeyCodesAsAssigned : Prop :=
  (∀ (nApp : Nat) (k : KeyCode), nApp ≤ 64 →
    (KeyCodeAssigned nApp k.toNat ↔ ∃ key : Key, key.wf nApp = true ∧ key.code = k)) ∧
  (∀ key key' : Key, key.code = key'.code → key = key') ∧
  (∀ d : Fin 10, (Key.digit d).code.toNat = d.val) ∧
  (∀ n : Fin 64, (Key.app n).code.toNat = 0x40 + n.val) ∧
  [Button.power, .dpadUp, .dpadDown, .dpadLeft, .dpadRight, .ok, .volUp, .volDown, .chUp, .chDown, .home, .back, .mute,
    .input].map (fun b => (Key.button b).code.toNat) = (List.range 14).map (0x10 + ·)

/-- A word of each row, written out from R71, R78 and R84, decodes to what it stands for (a sanity statement). -/
def Obligations.SpecWordsDecode : Prop :=
  decode 1 ⟨0x00001001, 0xFFFFFFFF, 1, 2, 3⟩ = .ok (.resolve (.button .power)) ∧
  decode 1 ⟨0x00000501, 0, 0, 0, 0⟩ = .ok (.resolve (.digit 5)) ∧
  decode 1 ⟨0x00004001, 0, 0, 0, 0⟩ = .ok (.resolve (.app 0)) ∧
  decode 1 ⟨0x00000002, 0x104, 0x108, 0xDEADBEEF, 0x12345678⟩ = .ok (.encNec 0x104 0x108) ∧
  decode 1 ⟨0x00000003, 21, 1, 0, 600⟩ = .ok (.encSirc20 21 1 0 600) ∧
  decode 1 ⟨0x00000004, 21, 1, 12, 7⟩ = .ok (.encSirc 21 1 12 7) ∧
  decode 1 ⟨0x00000013, 0, 0, 0, 0⟩ = .error .rsv0 ∧
  decode 1 ⟨0x80001001, 0, 0, 0, 0⟩ = .error .rsv1 ∧
  decode 1 ⟨0x00000102, 4, 8, 0, 0⟩ = .error .keyField ∧
  decode 1 ⟨0x00004101, 0, 0, 0, 0⟩ = .error .keyCode ∧
  decode 1 ⟨0x00000000, 0, 0, 0, 0⟩ = .error .opcode

/-! ## Issuing a request -/

/-- R54, R107: where the next move issues the request, REQ is written, the words decode to an instruction and the
operand registers it reads are written, the step is that instruction in the state with the move taken off the script. -/
def Obligations.StepRunsDecodedRequest : Prop :=
  ∀ (s : State) (rest : List HostAction) (i : Instr), NextMove s .issue rest → s.req.written = true →
    decode s.config.nApp ⟨s.req.value, s.opa.value, s.opb.value, s.opc.value, s.opd.value⟩ = .ok i →
    (∀ p ∈ operandPorts i, (s.port p).written = true) →
    step s = exec i { s with script := rest }

/-- R203, R206: a request whose REQ word is not legal completes with RESERVED_ENCODING, whatever its OP and whatever
its operand registers hold or whether they are written, and changes nothing but the result registers. -/
def Obligations.ReservedEncodingCompletes : Prop :=
  ∀ s : State, s.config.nApp ≤ 64 → s.req.written = true → ¬ LegalReq s.config.nApp s.req.value.toNat →
    ∃ t, issue s = .next t ∧ ErrorIs t 4 ∧ OnlyResultsChanged s t

/-- R74, R235: a RESOLVE whose REQ is written is executed, whether or not any operand register is written, and whatever
it holds. -/
def Obligations.ResolveReadsNoOperand : Prop :=
  ∀ (s : State) (key : Key), s.req.written = true → key.wf s.config.nApp = true →
    s.req.value.toNat = 1 + 256 * key.code.toNat → issue s = exec (.resolve key) s

/-- R21, R74, R235: a request that reads a port register not written since reset is a fault that names such a register:
REQ always, OPA and OPB for ENC.NEC, all four operand words for ENC.SIRC20 and ENC.SIRC, on every path (log 4). -/
def Obligations.UnwrittenPortFaults : Prop :=
  ∀ (s : State) (rest : List HostAction), NextMove s .issue rest →
    (s.req.written = false → step s = .fault (.portUnwritten .req)) ∧
    (s.req.written = true → s.req.value.toNat = 2 → (s.opa.written && s.opb.written) = false →
      ∃ p, (p = .opa ∨ p = .opb) ∧ (s.port p).written = false ∧ step s = .fault (.portUnwritten p)) ∧
    (s.req.written = true → s.req.value.toNat = 3 ∨ s.req.value.toNat = 4 →
      (s.opa.written && s.opb.written && s.opc.written && s.opd.written) = false →
      ∃ p, p ≠ .req ∧ (s.port p).written = false ∧ step s = .fault (.portUnwritten p))

/-- R81, R107, R236: under a well-formed configuration, a request all of whose port registers are written completes,
whatever they hold. -/
def Obligations.EveryWrittenRequestCompletes : Prop :=
  ∀ (s : State) (rest : List HostAction), NextMove s .issue rest →
    s.req.written = true → s.opa.written = true → s.opb.written = true → s.opc.written = true → s.opd.written = true →
    ∃ t, step s = .next t ∧ OnlyResultsChanged { s with script := rest } t

/-- R107: under a well-formed configuration every instruction completes, whatever its operands and the state. -/
def Obligations.EveryInstructionCompletes : Prop :=
  ∀ (i : Instr) (s : State), s.config.wf = true → ∃ t, exec i s = .next t ∧ OnlyResultsChanged s t

/-! ## ENC.NEC -/

/-- R121 to R124, R126, R127: ENC.NEC always completes with OK and the 67 elements of its frame, of the operands' low
bytes, and changes nothing but the result registers. -/
def Obligations.EncNecResult : Prop :=
  ∀ (opa opb : Word) (s : State), 130 ≤ s.config.maxPatternLen →
    ∃ t, exec (.encNec opa opb) s = .next t ∧ OnlyResultsChanged s t ∧
      ResultIs t 1 0 67 (necElem (opa.toNat % 256) (opb.toNat % 256))

/-- R129: the spaces of a NEC pattern, read back as bits least-significant first, give the four bytes. -/
def Obligations.NecDecodesBack : Prop :=
  ∀ (opa opb : Word) (s : State), 130 ≤ s.config.maxPatternLen →
    ∃ t, exec (.encNec opa opb) s = .next t ∧ ∀ j, j < 4 →
      ((List.range 8).map (fun i =>
        if t.readResult (.pat (3 + 16 * j + 2 * i)) = some 1690 then 2 ^ i else 0)).sum =
          necByteOf (opa.toNat % 256) (opb.toNat % 256) j

/-- R130: every NEC pattern has sixteen spaces of 1690 and sixteen data spaces of 560, and lasts 67980 microseconds. -/
def Obligations.NecDurationFixed : Prop :=
  ∀ (opa opb : Word) (s : State), 130 ≤ s.config.maxPatternLen →
    ∃ t, exec (.encNec opa opb) s = .next t ∧
      (List.range 32).countP (fun n => decide (t.readResult (.pat (3 + 2 * n)) = some 1690)) = 16 ∧
      (List.range 32).countP (fun n => decide (t.readResult (.pat (3 + 2 * n)) = some 560)) = 16 ∧
      (t.pat.map BitVec.toNat).sum = 67980

/-! ## ENC.SIRC20 -/

/-- R141, R142, R143, R145, R147: ENC.SIRC20 with a unit time in 1..0x3FFFFFFF completes with OK and the 42 elements of
its frame, of the masked fields, and changes nothing but the result registers. -/
def Obligations.EncSirc20Result : Prop :=
  ∀ (opa opb opc opd : Word) (s : State), 130 ≤ s.config.maxPatternLen → 1 ≤ opd.toNat → opd.toNat ≤ 0x3FFFFFFF →
    ∃ t, exec (.encSirc20 opa opb opc opd) s = .next t ∧ OnlyResultsChanged s t ∧
      ResultIs t 1 0 42
        (sircElem opd.toNat (sirc20Bit (opa.toNat % 2 ^ 7) (opb.toNat % 2 ^ 5) (opc.toNat % 2 ^ 8)))

/-- R146: ENC.SIRC20 with unit time 0 or above 0x3FFFFFFF raises INVALID_PARAMETERS. -/
def Obligations.EncSirc20BadUnitTime : Prop :=
  ∀ (opa opb opc opd : Word) (s : State), opd.toNat = 0 ∨ 0x3FFFFFFF < opd.toNat →
    ∃ t, exec (.encSirc20 opa opb opc opd) s = .next t ∧ OnlyResultsChanged s t ∧ ErrorIs t 2

/-- R148: the marks of a SIRC-20 pattern, read back as bits, give the three masked fields. -/
def Obligations.Sirc20FieldsRecovered : Prop :=
  ∀ (opa opb opc opd : Word) (s : State), 130 ≤ s.config.maxPatternLen → 1 ≤ opd.toNat → opd.toNat ≤ 0x3FFFFFFF →
    ∃ t, exec (.encSirc20 opa opb opc opd) s = .next t ∧
      (∀ n, n < 20 → t.readResult (.pat (2 + 2 * n)) = some (2 * opd) ∨ t.readResult (.pat (2 + 2 * n)) = some opd) ∧
      ∀ first width field : Nat,
        (first = 0 ∧ width = 7 ∧ field = opa.toNat % 2 ^ 7) ∨ (first = 7 ∧ width = 5 ∧ field = opb.toNat % 2 ^ 5) ∨
          (first = 12 ∧ width = 8 ∧ field = opc.toNat % 2 ^ 8) →
        ((List.range width).map (fun i =>
          if t.readResult (.pat (2 + 2 * (first + i))) = some (2 * opd) then 2 ^ i else 0)).sum = field

/-! ## ENC.SIRC -/

/-- R152, R154: ENC.SIRC with 0 ≤ numCommandBits ≤ totalDataBits ≤ 64, both signed, completes with OK and the frame at
600 microseconds of its command bits, then its address bits, bits at index 32 and above reading 0 (R76). -/
def Obligations.EncSircResult : Prop :=
  ∀ (opa opb opc opd : Word) (s : State), 130 ≤ s.config.maxPatternLen →
    0 ≤ opd.toInt → opd.toInt ≤ opc.toInt → opc.toInt ≤ 64 →
    ∃ t, exec (.encSirc opa opb opc opd) s = .next t ∧ OnlyResultsChanged s t ∧
      ResultIs t 1 0 (2 + 2 * opc.toInt.toNat) (sircElem 600 (sircBitOf opa.toNat opb.toNat opd.toInt.toNat))

/-- R151, R153: ENC.SIRC raises INVALID_PARAMETERS when numAddressBits < 0, numCommandBits < 0 or totalDataBits > 64. -/
def Obligations.EncSircBadCounts : Prop :=
  ∀ (opa opb opc opd : Word) (s : State), opc.toInt - opd.toInt < 0 ∨ opd.toInt < 0 ∨ 64 < opc.toInt →
    ∃ t, exec (.encSirc opa opb opc opd) s = .next t ∧ OnlyResultsChanged s t ∧ ErrorIs t 2

/-- R155: total 3 with 7 command bits fails, whatever the command and the address. -/
def Obligations.SircThreeBitsOfSevenFails : Prop :=
  ∀ (command address : Word) (s : State),
    ∃ t, exec (.encSirc command address 3 7) s = .next t ∧ ErrorIs t 2

/-- R158: ENC.SIRC at total 20 and 7 command bits is ENC.SIRC20 at 600, when its address is the device address followed
by the extended address. -/
def Obligations.Sirc20IsSircAtTwenty : Prop :=
  ∀ (c d e : Word) (s : State),
    exec (.encSirc c ((d &&& 0x1F) ||| ((e &&& 0xFF) <<< 5)) 20 7) s = exec (.encSirc20 c d e 600) s

/-! ## RESOLVE -/

/-- R176: a key whose slot is EMPTY raises NO_PATTERN_DEFINED, and there is nothing to hand to the Transmitter. -/
def Obligations.ResolveEmptySlot : Prop :=
  ∀ (key : Key) (s : State), s.config.table.lookup key.code = .empty →
    ∃ t, exec (.resolve key) s = .next t ∧ OnlyResultsChanged s t ∧ ErrorIs t 3 ∧ t.handOff = none

/-- R173: a NEC entry gives ENC.NEC's pattern with the entry's carrier; an author who gives none gets 38000 Hz. -/
def Obligations.ResolveNecEntry : Prop :=
  (∀ (key : Key) (s : State) (addr cmd : BitVec 8) (carrier : Word), 130 ≤ s.config.maxPatternLen →
    s.config.table.lookup key.code = .nec addr cmd carrier →
    ∃ t, exec (.resolve key) s = .next t ∧ OnlyResultsChanged s t ∧
      ResultIs t 1 carrier 67 (necElem addr.toNat cmd.toNat)) ∧
  ∀ addr cmd : BitVec 8, Entry.necDefault addr cmd = .nec addr cmd 38000

/-- R174: a SIRC entry gives the SIRC-20 pattern of its fields with the entry's carrier. -/
def Obligations.ResolveSircEntry : Prop :=
  ∀ (key : Key) (s : State) (cmd : BitVec 7) (dev : BitVec 5) (ext : BitVec 8) (unit carrier : Word),
    130 ≤ s.config.maxPatternLen → s.config.table.lookup key.code = .sirc cmd dev ext unit carrier →
    1 ≤ unit.toNat → unit.toNat ≤ 0x3FFFFFFF →
    ∃ t, exec (.resolve key) s = .next t ∧ OnlyResultsChanged s t ∧
      ResultIs t 1 carrier 42 (sircElem unit.toNat (sirc20Bit cmd.toNat dev.toNat ext.toNat))

/-- R170, R201: a SIRC entry whose unit time is out of range, which no well-formed configuration has, raises
INVALID_PARAMETERS. -/
def Obligations.ResolveSircEntryBadUnit : Prop :=
  ∀ (key : Key) (s : State) (cmd : BitVec 7) (dev : BitVec 5) (ext : BitVec 8) (unit carrier : Word),
    s.config.table.lookup key.code = .sirc cmd dev ext unit carrier → unit.toNat = 0 ∨ 0x3FFFFFFF < unit.toNat →
    ∃ t, exec (.resolve key) s = .next t ∧ OnlyResultsChanged s t ∧ ErrorIs t 2

/-- R175: under a well-formed configuration a captured entry is returned element for element, with its carrier. -/
def Obligations.ResolveCapturedEntry : Prop :=
  ∀ (key : Key) (s : State) (clen : Word) (cdur : List Word) (carrier : Word), s.config.wf = true →
    s.config.table.lookup key.code = .captured clen cdur carrier →
    ∃ t, exec (.resolve key) s = .next t ∧ OnlyResultsChanged s t ∧
      ResultIs t 1 carrier clen.toNat (fun i => (cdur.getD i 0).toNat)

/-! ## Errors -/

/-- R202: only RESOLVE ends with NO_PATTERN_DEFINED, and exactly for an EMPTY slot. -/
def Obligations.NoPatternDefinedExactly : Prop :=
  ∀ (i : Instr) (s t : State), exec i s = .next t →
    (t.resStatus.toNat = 3 ↔ ∃ key, i = .resolve key ∧ s.config.table.lookup key.code = .empty)

/-- R201: an instruction ends with INVALID_PARAMETERS in exactly the cases of R201. -/
def Obligations.InvalidParametersExactly : Prop :=
  ∀ (i : Instr) (s t : State), exec i s = .next t →
    (t.resStatus.toNat = 2 ↔
      (∃ a b c d, i = .encSirc a b c d ∧ (c.toInt - d.toInt < 0 ∨ d.toInt < 0 ∨ 64 < c.toInt)) ∨
      (∃ a b c d, i = .encSirc20 a b c d ∧ (d.toNat = 0 ∨ 0x3FFFFFFF < d.toNat)) ∨
      (∃ key cmd dev ext unit carrier, i = .resolve key ∧
        s.config.table.lookup key.code = .sirc cmd dev ext unit carrier ∧
        (unit.toNat = 0 ∨ 0x3FFFFFFF < unit.toNat)))

/-- R200: a request that does not end with OK leaves carrier 0, length 0 and PAT 0, changes nothing but the result
registers, and affects no later request: whatever instruction comes next runs as it would have run before. -/
def Obligations.ErrorAffectsNothingElse : Prop :=
  ∀ (s t : State), issue s = .next t → t.resStatus.toNat ≠ 1 →
    ErrorIs t t.resStatus.toNat ∧ OnlyResultsChanged s t ∧ ∀ j, exec j t = exec j s

/-- R22, R80: every request that completes writes one of the codes 1 to 4; 0 is never written by a request. -/
def Obligations.RequestWritesALegalStatus : Prop :=
  ∀ (s t : State), issue s = .next t → 1 ≤ t.resStatus.toNat ∧ t.resStatus.toNat ≤ 4

/-- R15, R106: Finish with status OK faults exactly on a pattern that is not valid (R104) where its length fits RES_LEN,
and every other Finish completes. -/
def Obligations.FinishFaultsExactlyOnInvalid : Prop :=
  ∀ (st : Status) (f : Word) (p : Pattern) (s : State), p.length < 2 ^ 32 →
    (finish st f p s = .fault .invalidPattern ↔
      st = .ok ∧ ¬ (1 ≤ p.length ∧ p.length ≤ s.config.maxPatternLen ∧ ∀ d ∈ p, 1 ≤ d ∧ d ≤ 2 ^ 32 - 1)) ∧
    (finish st f p s ≠ .fault .invalidPattern → ∃ t, finish st f p s = .next t ∧ OnlyResultsChanged s t)

/-! ## Whole-machine rules -/

/-- R20, R21, R33: whatever the request, only the result registers change. -/
def Obligations.RequestChangesOnlyResults : Prop :=
  ∀ (s t : State), issue s = .next t → OnlyResultsChanged s t

/-- R108: the result registers after a request are a function of REQ, the operand words it reads (R74) and the
configuration alone: two states that agree on those give the same results, whatever else they hold. -/
def Obligations.RequestDependsOnlyOnWhatItReads : Prop :=
  ∀ (s u t : State), s.config = u.config → s.req = u.req →
    (s.req.value.toNat = 2 ∨ s.req.value.toNat = 3 ∨ s.req.value.toNat = 4 → s.opa = u.opa ∧ s.opb = u.opb) →
    (s.req.value.toNat = 3 ∨ s.req.value.toNat = 4 → s.opc = u.opc ∧ s.opd = u.opd) →
    issue s = .next t → ∃ v, issue u = .next v ∧ SameResults t v

/-- R26: a host move that is neither a request nor a reset leaves the result registers as they are; and a request
rewrites all of them: nothing of an earlier result survives, since in any two states of one configuration an instruction
leaves the same values in every result register. -/
def Obligations.ResultsWrittenOnlyByRequestAndReset : Prop :=
  (∀ (s t : State) (a : HostAction), act a s = .next t → a ≠ .issue → a ≠ .reset → SameResults s t) ∧
  (∀ (i : Instr) (s u t : State), s.config = u.config → exec i s = .next t →
    ∃ v, exec i u = .next v ∧ SameResults t v)

/-- R55: issuing the same request again writes the same values. -/
def Obligations.SameRequestTwice : Prop :=
  ∀ (s t : State), issue s = .next t → issue t = .next t

/-- R177: two RESOLVE requests with the same key write identical values to every result register, whatever steps run
between them. -/
def Obligations.ResolveDeterministicAcrossRuns : Prop :=
  ∀ (n : Nat) (key : Key) (s t u : State), exec (.resolve key) s = .next t →
    Host.Core.run Sys2Proof.core n t = .next u → ∃ v, exec (.resolve key) u = .next v ∧ SameResults t v

/-- R22 to R26, R32, R33: every step keeps the configuration well formed and the result registers as R22 to R25 say they
always are. -/
def Obligations.StepKeepsGood : Prop :=
  ∀ (s t : State), s.Good → step s = .next t → t.Good

/-- R32, R36: the invariant holds after reset with any well-formed configuration, and so in the state reset, whose
configuration is the model's choice (log 2). -/
def Obligations.ResetIsGood : Prop :=
  (∀ c : Config, c.wf = true → (State.resetWith c).Good) ∧ State.reset.Good

/-- R32: for a table in the model's canonical form (log 6), configuring succeeds exactly when R32's clauses hold, and no
step of a machine with an ill-formed configuration is answered. -/
def Obligations.IllFormedConfigurationRefused : Prop :=
  ∀ c : Config, c.table.canonical = true →
    (ConfigLegal c → configure c = .next (State.resetWith c)) ∧
    (¬ ConfigLegal c → configure c = .refused .illFormedConfiguration ∧
      ∀ s : State, s.config = c → step s = .refused .illFormedConfiguration)

/-! ## Reset and the host -/

/-- R36, R230: what reset leaves: the configuration installed, the result registers 0, no port register written. -/
def Obligations.ResetValues : Prop :=
  ∀ c : Config, c.wf = true → ∃ t, configure c = .next t ∧ t.config = c ∧ ErrorIs t 0 ∧
    ∀ p, (t.port p).written = false

/-- R232: a later reset gives every result register its reset value, installs the configuration again and makes the port
registers unwritten again (R21, R230). The moves the host has still to make stay (the model's choice, log 10). -/
def Obligations.ResetMove : Prop :=
  ∀ (s : State) (rest : List HostAction), NextMove s .reset rest →
    ∃ t, step s = .next t ∧ t.config = s.config ∧ ErrorIs t 0 ∧ (∀ p, (t.port p).written = false) ∧ t.script = rest

/-- R21, R235: the host's write of a port register changes that register alone, and a register it did not rewrite keeps
its value. -/
def Obligations.WriteMove : Prop :=
  ∀ (s : State) (p : Port) (v : Word) (rest : List HostAction), NextMove s (.write p v) rest →
    ∃ t, step s = .next t ∧ t.port p = ⟨v, true⟩ ∧ (∀ q, q ≠ p → t.port q = s.port q) ∧ SameResults s t ∧
      t.config = s.config ∧ t.script = rest

/-- R55: reading a result register changes nothing; reading PAT where it has no element (R50) is a fault, by the
model's choice (log 12). -/
def Obligations.ReadMove : Prop :=
  ∀ (s : State) (r : ResultReg) (rest : List HostAction), NextMove s (.read r) rest →
    ((s.readResult r).isSome = true → step s = .next { s with script := rest }) ∧
    (∀ i, r = .pat i → s.config.maxPatternLen ≤ i → step s = .fault (.noSuchElement i))

/-- R216, R230: a core the host makes no move on waits, unchanged. -/
def Obligations.WaitingChangesNothing : Prop :=
  ∀ s : State, s.config.wf = true → s.script = [] → step s = .next s

/-- R218: the host's transmit move is there exactly when RES_STATUS = OK and RES_CARRIER is not 0, and the core takes no
part in it. -/
def Obligations.TransmitOnlyAfterSuccess : Prop :=
  ∀ (s : State) (rest : List HostAction), NextMove s .transmit rest →
    (s.resStatus.toNat = 1 ∧ s.resCarrier ≠ 0 → step s = .next { s with script := rest }) ∧
    (¬ (s.resStatus.toNat = 1 ∧ s.resCarrier ≠ 0) → step s = .refused .transmitForbidden)

/-- R23, R218: under a well-formed configuration, a result can be handed over exactly when it came from a RESOLVE of a
key whose slot is not EMPTY. -/
def Obligations.OnlyResolveCanBeHandedOver : Prop :=
  ∀ (i : Instr) (s t : State), s.config.wf = true → exec i s = .next t →
    (t.handOff.isSome = true ↔ ∃ key, i = .resolve key ∧ s.config.table.lookup key.code ≠ .empty)

/-- R109, R217: what the host hands over from a good state is a valid pair: the carrier is not 0 and is RES_CARRIER, the
pattern is PAT[0..RES_LEN-1], not empty, no longer than the buffer and of positive durations. -/
def Obligations.HandedOverPairIsValid : Prop :=
  ∀ (s : State) (f : Word) (p : List Word), s.Good → s.handOff = some (f, p) →
    f = s.resCarrier ∧ f ≠ 0 ∧ p.length = s.resLen.toNat ∧ 1 ≤ p.length ∧ p.length ≤ s.config.maxPatternLen ∧
      (∀ d ∈ p, d ≠ 0) ∧ ∀ i, i < p.length → s.readResult (.pat i) = some (p.getD i 0)

/-- R233, R235: from reset with any well-formed configuration, a host that writes the five words of a request and issues
it gets, in six steps, what the instruction they decode to gives. -/
def Obligations.RequestRunsFromReset : Prop :=
  ∀ (c : Config) (r : Request) (i : Instr), c.wf = true → decode c.nApp r = .ok i →
    ∃ t, Host.Core.run Sys2Proof.core 6 { State.resetWith c with script := requestMoves r } = .next t ∧
      exec i ((State.resetWith c).writeRequest r) = .next t

/-! ## The table's author and the assembler -/

/-- R178: setting a slot of a canonical table changes that slot alone, and keeps the canonical form. -/
def Obligations.TableSetChangesOneSlot : Prop :=
  ∀ (t : Table) (k : KeyCode) (e : Entry), t.canonical = true →
    (t.set k e).canonical = true ∧ ∀ k', (t.set k e).lookup k' = if k' = k then e else t.lookup k'

/-- R83: each pseudo-instruction assembles as its expansion. -/
def Obligations.PseudoInstructionsExpand : Prop :=
  ∀ nApp : Nat,
  (∀ cmd, assemble nApp (.encNecDefault cmd) = assemble nApp (.encNec 0x04 cmd)) ∧
  (∀ cmd dev ext, assemble nApp (.encSirc20Default cmd dev ext) = assemble nApp (.encSirc20 cmd dev ext 600)) ∧
  (∀ cmd addr total, assemble nApp (.encSircDefault cmd addr total) = assemble nApp (.encSirc cmd addr total 7)) ∧
  (∀ cmd addr, assemble nApp (.encSirc12 cmd addr) = assemble nApp (.encSirc cmd addr 12 7)) ∧
  (∀ cmd addr, assemble nApp (.encSirc15 cmd addr) = assemble nApp (.encSirc cmd addr 15 7))

/-- R82, R78: a RESOLVE line of a key's name assembles to words that decode to it when the key exists under N_APP. That
the name of a key that does not exist is an assembler error is the model's deduction (DEDUCED, log 17). A line of another mnemonic whose literals are in -2^31..2^32-1 assembles to words that
decode to its instruction, each literal as its two's-complement word; a literal out of that range is an assembler error. -/
def Obligations.AssembledLinesDecode : Prop :=
  (∀ (nApp : Nat) (key : Key),
    if key.wf nApp = true then ∃ r, assemble nApp (.resolve (.name key)) = some r ∧ decode nApp r = .ok (.resolve key)
    else assemble nApp (.resolve (.name key)) = none) ∧
  (∀ (nApp : Nat) (a b : Int),
    if (∀ x ∈ [a, b], -2 ^ 31 ≤ x ∧ x ≤ 2 ^ 32 - 1) then
      ∃ r, assemble nApp (.encNec a b) = some r ∧ decode nApp r = .ok (.encNec (BitVec.ofInt 32 a) (BitVec.ofInt 32 b))
    else assemble nApp (.encNec a b) = none) ∧
  (∀ (nApp : Nat) (a b c d : Int),
    if (∀ x ∈ [a, b, c, d], -2 ^ 31 ≤ x ∧ x ≤ 2 ^ 32 - 1) then
      (∃ r, assemble nApp (.encSirc20 a b c d) = some r ∧ decode nApp r =
        .ok (.encSirc20 (BitVec.ofInt 32 a) (BitVec.ofInt 32 b) (BitVec.ofInt 32 c) (BitVec.ofInt 32 d))) ∧
      ∃ r, assemble nApp (.encSirc a b c d) = some r ∧ decode nApp r =
        .ok (.encSirc (BitVec.ofInt 32 a) (BitVec.ofInt 32 b) (BitVec.ofInt 32 c) (BitVec.ofInt 32 d))
    else assemble nApp (.encSirc20 a b c d) = none ∧ assemble nApp (.encSirc a b c d) = none)

/-! ## The configuration -/

/-- R33: whatever a step is (a request, a host move, a reset or a wait), if it goes on, TABLE, N_APP and MAX_PATTERN_LEN
are as they were. -/
def Obligations.StepKeepsConfiguration : Prop :=
  ∀ s t : State, step s = .next t → t.config = s.config

/-! ## Raw words of the assembler -/

/-- R82: `#<code>` gives any raw key code 0..255 and nothing else; `.req` gives its five words as written; and only these
two forms write a reserved request word, since every other line that assembles decodes to an instruction (for a RESOLVE by
an APP name by the model's deduction that an absent one does not assemble, DEDUCED, log 17). -/
def Obligations.OnlyRawFormsWriteReservedWords : Prop :=
  (∀ (nApp : Nat) (c : Int),
    if 0 ≤ c ∧ c ≤ 255 then
      ∃ r, assemble nApp (.resolve (.code c)) = some r ∧ (r.req.toNat : Int) = 1 + 256 * c ∧
        r.opa = 0 ∧ r.opb = 0 ∧ r.opc = 0 ∧ r.opd = 0
    else assemble nApp (.resolve (.code c)) = none) ∧
  (∀ (nApp : Nat) (w0 w1 w2 w3 w4 : Int),
    assemble nApp (.req w0 w1 w2 w3 w4) =
      if (∀ x ∈ [w0, w1, w2, w3, w4], -2 ^ 31 ≤ x ∧ x ≤ 2 ^ 32 - 1) then
        some ⟨BitVec.ofInt 32 w0, BitVec.ofInt 32 w1, BitVec.ofInt 32 w2, BitVec.ofInt 32 w3, BitVec.ofInt 32 w4⟩
      else none) ∧
  ∀ (nApp : Nat) (l : AsmLine) (r : Request), assemble nApp l = some r →
    (∃ i, decode nApp r = .ok i) ∨ (∃ c, l = .resolve (.code c)) ∨ ∃ w0 w1 w2 w3 w4, l = .req w0 w1 w2 w3 w4
end

