-- ==== Sys2Proof/Laws/Decode.lean ====
section
/-! SUPPORT. The small lemmas of the decoder and the encoder: the fields of an encoded REQ word, and key codes. -/

namespace Sys2Proof

/-! ## The fields of `OP | (KEY << 8)` -/

section Fields

variable (o : BitVec 4) (k : KeyCode) (a b c d : Word)

/-- Every bit of `OP | (KEY << 8)`. -/
theorem reqWord_bit (i : Nat) : (reqWord o k).getLsbD i =
    if i < 4 then o.getLsbD i else if i < 8 then false else if i < 16 then k.getLsbD (i - 8) else false := by
  simp only [reqWord, BitVec.getLsbD_append, BitVec.getLsbD_zero]
  split
  · rfl
  · by_cases h8 : i - 4 < 4
    · simp [h8, show i < 8 by omega]
    · by_cases h16 : i - 4 - 4 < 8
      · simp [h8, show ¬ i < 8 by omega, show i < 16 by omega, show i - 4 - 4 = i - 8 by omega, show i - 8 < 8 by omega]
      · simp [h8, h16, show ¬ i < 8 by omega, show ¬ i < 16 by omega]

@[simp] theorem Request.op_reqWord : Request.op ⟨reqWord o k, a, b, c, d⟩ = o := by
  apply BitVec.eq_of_getLsbD_eq
  intro i hi
  simp [Request.op, reqWord_bit, hi]

@[simp] theorem Request.rsv0_reqWord : Request.rsv0 ⟨reqWord o k, a, b, c, d⟩ = 0 := by
  apply BitVec.eq_of_getLsbD_eq
  intro i hi
  simp [Request.rsv0, reqWord_bit, show 4 + i < 8 by omega]

@[simp] theorem Request.key_reqWord : Request.key ⟨reqWord o k, a, b, c, d⟩ = k := by
  apply BitVec.eq_of_getLsbD_eq
  intro i hi
  simp [Request.key, reqWord_bit, hi, show ¬ 8 + i < 4 by omega, show 8 + i < 16 by omega]

@[simp] theorem Request.rsv1_reqWord : Request.rsv1 ⟨reqWord o k, a, b, c, d⟩ = 0 := by
  apply BitVec.eq_of_getLsbD_eq
  intro i hi
  simp [Request.rsv1, reqWord_bit, show ¬ 16 + i < 4 by omega, show ¬ 16 + i < 8 by omega]

end Fields

/-- A REQ word whose reserved fields are 0 is `OP | (KEY << 8)` of its own fields. -/
theorem reqWord_of_fields (r : Request) (h0 : r.rsv0 = 0) (h1 : r.rsv1 = 0) : reqWord r.op r.key = r.req := by
  have e0 : ∀ i, i < 4 → r.req.getLsbD (4 + i) = false := fun i hi => by
    simpa [Request.rsv0, hi] using congrArg (·.getLsbD i) h0
  have e1 : ∀ i, i < 16 → r.req.getLsbD (16 + i) = false := fun i hi => by
    simpa [Request.rsv1, hi] using congrArg (·.getLsbD i) h1
  apply BitVec.eq_of_getLsbD_eq
  intro i hi
  simp only [reqWord, Request.op, Request.key, BitVec.getLsbD_append]
  by_cases h4 : i < 4
  · simp [h4]
  by_cases h8 : i - 4 < 4
  · have := e0 (i - 4) h8
    rw [show 4 + (i - 4) = i by omega] at this
    simp [h4, h8, this]
  by_cases h16 : i - 4 - 4 < 8
  · simp [h4, h8, h16, show 8 + (i - 4 - 4) = i by omega]
  · have := e1 (i - 16) (by omega)
    rw [show 16 + (i - 16) = i by omega] at this
    simp [h4, h8, h16, this]

/-! ## Key codes -/

/-- A key that exists under N_APP is the one its code names. -/
theorem keyOfCode_code {nApp : Nat} {key : Key} (h : key.wf nApp = true) : keyOfCode nApp key.code = some key := by
  cases key with
  | digit d =>
    have hc : (Key.code (.digit d)).toNat = d.val := by
      simp only [Key.code, BitVec.toNat_ofNat]; omega
    simp [keyOfCode, hc]
  | button b => cases b <;> rfl
  | app n =>
    have hn : n.val < nApp := by simpa [Key.wf] using h
    have hc : (Key.code (.app n)).toNat = 0x40 + n.val := by
      simp only [Key.code, BitVec.toNat_ofNat]; omega
    have h1 : ¬ (0x40 + n.val < 10) := by omega
    have h2 : 0x40 + n.val < 0x80 := by omega
    simp only [keyOfCode, hc, h1, h2, hn, dite_false, dite_true, Nat.le_add_right, and_self, Nat.add_lt_add_iff_left,
      if_true, Nat.add_sub_cancel_left]

/-- A code names a key exactly when that key exists under N_APP and has that code. -/
theorem keyOfCode_eq_some {nApp : Nat} {k : KeyCode} {key : Key} :
    keyOfCode nApp k = some key ↔ key.wf nApp = true ∧ key.code = k := by
  constructor
  · intro h
    unfold keyOfCode at h
    split at h
    · obtain rfl := Option.some.inj h
      refine ⟨rfl, ?_⟩
      apply BitVec.eq_of_toNat_eq
      simp only [Key.code, BitVec.toNat_ofNat]; omega
    · split at h
      · split at h
        · obtain rfl := Option.some.inj h
          refine ⟨by simp [Key.wf]; omega, ?_⟩
          apply BitVec.eq_of_toNat_eq
          simp only [Key.code, BitVec.toNat_ofNat]; omega
        · cases h
      · unfold buttonOfCode at h
        split at h <;> simp only [Option.map_some, Option.map_none, Option.some.injEq, reduceCtorEq] at h <;>
          subst h <;> refine ⟨rfl, BitVec.eq_of_toNat_eq ?_⟩ <;> simp only [Key.code, Button.code] <;>
          rename_i hk <;> rw [hk] <;> rfl
  · rintro ⟨h, rfl⟩
    exact keyOfCode_code h

theorem buttonOfCode_isSome (k : KeyCode) :
    (buttonOfCode k).isSome = (decide (16 ≤ k.toNat) && decide (k.toNat ≤ 29)) := by
  revert k; decide +kernel

/-- With N_APP in its range, the codes that name a key are the assigned ones of R79. -/
theorem keyOfCode_isSome {nApp : Nat} (hn : nApp ≤ 64) (k : KeyCode) :
    (keyOfCode nApp k).isSome = keyAssigned nApp k := by
  unfold keyOfCode
  split
  · have : k.toNat ≤ 9 := by omega
    simp [keyAssigned, this]
  · split
    · split <;> simp [keyAssigned] <;> omega
    · rw [Option.isSome_map, buttonOfCode_isSome]
      simp only [keyAssigned]
      by_cases h1 : 16 ≤ k.toNat <;> by_cases h2 : k.toNat ≤ 29 <;> simp [h1, h2] <;> omega

/-! ## Decoding -/

/-- Everything the decoder accepts: the reserved fields are 0 and the instruction is one of the four, by OP (R71, R72). -/
theorem decode_ok_cases {nApp : Nat} {r : Request} {i : Instr} (h : decode nApp r = .ok i) :
    r.rsv1 = 0 ∧ r.rsv0 = 0 ∧
    ((r.op = 1 ∧ ∃ key, i = .resolve key ∧ keyOfCode nApp r.key = some key) ∨
     (r.op = 2 ∧ r.key = 0 ∧ i = .encNec r.opa r.opb) ∨
     (r.op = 3 ∧ r.key = 0 ∧ i = .encSirc20 r.opa r.opb r.opc r.opd) ∨
     (r.op = 4 ∧ r.key = 0 ∧ i = .encSirc r.opa r.opb r.opc r.opd)) := by
  unfold decode withoutKey at h
  split at h
  · cases h
  rename_i h1
  split at h
  · cases h
  rename_i h0
  refine ⟨not_not.mp h1, not_not.mp h0, ?_⟩
  have op_eq : ∀ n : Nat, n < 16 → r.op.toNat = n → r.op = BitVec.ofNat 4 n := fun n hn e =>
    BitVec.eq_of_toNat_eq (by simpa [Nat.mod_eq_of_lt hn] using e)
  split at h
  · rename_i e
    split at h
    · rename_i key hk
      exact .inl ⟨op_eq 1 (by decide) e, key, (Except.ok.inj h).symm, hk⟩
    · cases h
  · rename_i e
    split at h
    · rename_i hk; exact .inr (.inl ⟨op_eq 2 (by decide) e, hk, (Except.ok.inj h).symm⟩)
    · cases h
  · rename_i e
    split at h
    · rename_i hk; exact .inr (.inr (.inl ⟨op_eq 3 (by decide) e, hk, (Except.ok.inj h).symm⟩))
    · cases h
  · rename_i e
    split at h
    · rename_i hk; exact .inr (.inr (.inr ⟨op_eq 4 (by decide) e, hk, (Except.ok.inj h).symm⟩))
    · cases h
  · cases h

end Sys2Proof
end

