-- ==== Sys2Proof/Laws/State.lean ====
section
/-! SUPPORT. One lemma per field per update of State, each true by unfolding, so that no later proof unfolds a record
update. -/

namespace Sys2Proof.Machine

section WriteResults

variable (s : State) (st : Status) (f : Word) (p : Pattern)

@[simp] theorem State.writeResults_config : (s.writeResults st f p).config = s.config := rfl
@[simp] theorem State.writeResults_req : (s.writeResults st f p).req = s.req := rfl
@[simp] theorem State.writeResults_opa : (s.writeResults st f p).opa = s.opa := rfl
@[simp] theorem State.writeResults_opb : (s.writeResults st f p).opb = s.opb := rfl
@[simp] theorem State.writeResults_opc : (s.writeResults st f p).opc = s.opc := rfl
@[simp] theorem State.writeResults_opd : (s.writeResults st f p).opd = s.opd := rfl
@[simp] theorem State.writeResults_script : (s.writeResults st f p).script = s.script := rfl
@[simp] theorem State.writeResults_resStatus : (s.writeResults st f p).resStatus = st.code := rfl
@[simp] theorem State.writeResults_resCarrier :
    (s.writeResults st f p).resCarrier = if st = .ok then f else 0 := rfl
@[simp] theorem State.writeResults_resLen :
    (s.writeResults st f p).resLen = if st = .ok then BitVec.ofNat 32 p.length else 0 := rfl
@[simp] theorem State.writeResults_pat :
    (s.writeResults st f p).pat = patBuffer s.config.maxPatternLen (if st = .ok then p else []) := rfl

/-- A completion overwrites every result register, so the one before it leaves nothing behind. -/
@[simp] theorem State.writeResults_writeResults (st' : Status) (f' : Word) (p' : Pattern) :
    (s.writeResults st f p).writeResults st' f' p' = s.writeResults st' f' p' := rfl

end WriteResults

section WritePort

variable (s : State) (p : Port) (v : Word)

@[simp] theorem State.writePort_config : (s.writePort p v).config = s.config := by cases p <;> rfl
@[simp] theorem State.writePort_resStatus : (s.writePort p v).resStatus = s.resStatus := by cases p <;> rfl
@[simp] theorem State.writePort_resCarrier : (s.writePort p v).resCarrier = s.resCarrier := by cases p <;> rfl
@[simp] theorem State.writePort_resLen : (s.writePort p v).resLen = s.resLen := by cases p <;> rfl
@[simp] theorem State.writePort_pat : (s.writePort p v).pat = s.pat := by cases p <;> rfl
@[simp] theorem State.writePort_script : (s.writePort p v).script = s.script := by cases p <;> rfl

/-- The port written holds the value and counts as written; the other four are as before. -/
@[simp] theorem State.writePort_port (q : Port) :
    (s.writePort p v).port q = if q = p then ⟨v, true⟩ else s.port q := by
  cases p <;> cases q <;> rfl

end WritePort

section Script

variable (s : State) (l : List HostAction)

@[simp] theorem State.setScript_port (p : Port) : ({ s with script := l } : State).port p = s.port p := by
  cases p <;> rfl
@[simp] theorem State.setScript_request : ({ s with script := l } : State).request = s.request := rfl
@[simp] theorem State.setScript_firstUnwritten (ps : List Port) :
    ({ s with script := l } : State).firstUnwritten ps = s.firstUnwritten ps := by
  simp [State.firstUnwritten]

end Script

section Reset

variable (s : State)

@[simp] theorem State.hostReset_config : s.hostReset.config = s.config := rfl
@[simp] theorem State.hostReset_script : s.hostReset.script = s.script := rfl
@[simp] theorem State.hostReset_resStatus : s.hostReset.resStatus = 0 := rfl
@[simp] theorem State.hostReset_resCarrier : s.hostReset.resCarrier = 0 := rfl
@[simp] theorem State.hostReset_resLen : s.hostReset.resLen = 0 := rfl
@[simp] theorem State.hostReset_pat : s.hostReset.pat = List.replicate s.config.maxPatternLen 0 := rfl
@[simp] theorem State.hostReset_port (p : Port) : s.hostReset.port p = PortReg.atReset := by cases p <;> rfl

end Reset

end Sys2Proof.Machine
end

