-- ==== Sys2Proof/Laws/Ops.lean ====
section
/-! SUPPORT. One lemma per shared operation that says all it can do: the table, PAT, Finish and raise, the signed
operands, the fetch of a request. Provers cite these and do not unfold the operations. -/

namespace Sys2Proof

/-! ## The table -/

@[simp] theorem Table.lookup_nil (k : KeyCode) : Table.lookup [] k = .empty := rfl

theorem Table.lookup_cons (k' : KeyCode) (e : Entry) (t : Table) (k : KeyCode) :
    Table.lookup ((k', e) :: t) k = if k' = k then e else Table.lookup t k := rfl

/-- A slot that reads as an entry other than EMPTY is listed. -/
theorem Table.mem_of_lookup {t : Table} {k : KeyCode} (h : t.lookup k ≠ .empty) : (k, t.lookup k) ∈ t := by
  induction t with
  | nil => exact absurd rfl h
  | cons x t ih =>
    obtain ⟨k', e⟩ := x
    rw [Table.lookup_cons] at h ⊢
    split
    · subst_vars; simp
    · rename_i hk
      rw [if_neg hk] at h
      exact List.mem_cons_of_mem _ (ih h)

/-- What canonical form says of the head: its entry is not EMPTY, every later code is above its code, and the rest is
canonical. -/
theorem Table.canonical_cons {k : KeyCode} {e : Entry} {t : Table} :
    Table.canonical ((k, e) :: t) = true ↔
      e ≠ .empty ∧ (∀ x ∈ t, k.toNat < x.1.toNat) ∧ Table.canonical t = true := by
  induction t generalizing k e with
  | nil => simp [Table.canonical]
  | cons x t ih =>
    obtain ⟨k', e'⟩ := x
    simp only [Table.canonical, Bool.and_eq_true, decide_eq_true_eq, ih, List.forall_mem_cons]
    constructor
    · rintro ⟨⟨h1, h2⟩, h3, h4, h5⟩
      exact ⟨h1, ⟨h2, fun y hy => h2.trans (h4 y hy)⟩, h3, h4, h5⟩
    · rintro ⟨h1, ⟨h2, _⟩, h3, h4, h5⟩
      exact ⟨⟨h1, h2⟩, h3, h4, h5⟩

/-- In a canonical table, a listed slot reads as its entry. -/
theorem Table.lookup_of_mem {t : Table} (hc : t.canonical = true) {k : KeyCode} {e : Entry} (h : (k, e) ∈ t) :
    t.lookup k = e := by
  induction t with
  | nil => cases h
  | cons x t ih =>
    obtain ⟨k', e'⟩ := x
    obtain ⟨_, hlt, hc'⟩ := Table.canonical_cons.mp hc
    rw [Table.lookup_cons]
    rcases List.mem_cons.mp h with h | h
    · cases h; simp
    · have := hlt _ h
      rw [if_neg (by rintro rfl; exact absurd this (lt_irrefl _)), ih hc' h]

/-- Every code `set` lists is the one set or was listed before. -/
theorem Table.mem_set {t : Table} {k : KeyCode} {e : Entry} {x : KeyCode × Entry} (h : x ∈ t.set k e) :
    x = (k, e) ∨ x ∈ t := by
  induction t with
  | nil =>
    unfold Table.set at h
    split at h <;> simp_all
  | cons y t ih =>
    obtain ⟨k', e'⟩ := y
    unfold Table.set at h
    split at h
    · split at h <;> simp_all
    · split at h
      · split at h <;> simp_all
        tauto
      · rcases List.mem_cons.mp h with h | h
        · exact .inr (by simp [h])
        · rcases ih h with h | h
          · exact .inl h
          · exact .inr (List.mem_cons_of_mem _ h)

/-- Setting a slot keeps the canonical form. -/
theorem Table.set_canonical {t : Table} (hc : t.canonical = true) (k : KeyCode) (e : Entry) :
    (t.set k e).canonical = true := by
  induction t with
  | nil =>
    unfold Table.set
    split <;> simp_all [Table.canonical]
  | cons y t ih =>
    obtain ⟨k', e'⟩ := y
    obtain ⟨hne, hlt, hc'⟩ := Table.canonical_cons.mp hc
    unfold Table.set
    split
    · rename_i hk
      split
      · exact hc
      · rename_i he
        refine Table.canonical_cons.mpr ⟨he, ?_, hc⟩
        intro x hx
        rcases List.mem_cons.mp hx with rfl | hx
        · exact hk
        · exact hk.trans (hlt x hx)
    · rename_i hk
      split
      · rename_i hk'
        subst hk'
        split
        · exact hc'
        · rename_i he
          exact Table.canonical_cons.mpr ⟨he, hlt, hc'⟩
      · rename_i hk'
        refine Table.canonical_cons.mpr ⟨hne, ?_, ih hc'⟩
        intro x hx
        rcases Table.mem_set hx with rfl | hx
        · have : k.toNat ≠ k'.toNat := fun he => hk' (BitVec.eq_of_toNat_eq he)
          simp only; omega
        · exact hlt x hx

/-! ## A well-formed configuration -/

/-- The clauses of a well-formed configuration (R32). -/
theorem Config.wf_iff {c : Config} : c.wf = true ↔
    c.nApp ≤ 64 ∧ 130 ≤ c.maxPatternLen ∧ c.table.canonical = true ∧
      ∀ k e, (k, e) ∈ c.table → keyAssigned c.nApp k = true ∧ e.wf c.maxPatternLen = true := by
  simp only [Config.wf, Bool.and_eq_true, decide_eq_true_eq, List.all_eq_true, Prod.forall, and_assoc]

theorem Config.wf_nApp {c : Config} (h : c.wf = true) : c.nApp ≤ 64 := (Config.wf_iff.mp h).1
theorem Config.wf_maxPatternLen {c : Config} (h : c.wf = true) : 130 ≤ c.maxPatternLen := (Config.wf_iff.mp h).2.1

/-- Every slot of a well-formed configuration reads as an entry within its legal values. -/
theorem Config.wf_lookup {c : Config} (h : c.wf = true) (k : KeyCode) :
    (c.table.lookup k).wf c.maxPatternLen = true := by
  by_cases he : c.table.lookup k = .empty
  · rw [he]; rfl
  · exact ((Config.wf_iff.mp h).2.2.2 k _ (Table.mem_of_lookup he)).2

namespace Machine

/-! ## Operands -/

/-- The signed reading of R13 is the two's-complement one. -/
theorem sint32_eq_toInt (w : Word) : sint32 w = w.toInt := by
  have h31 : w.getLsbD 31 = w.msb := by rw [BitVec.msb_eq_getLsbD_last]
  have hlt := w.isLt
  rw [sint32, h31, BitVec.toInt_eq_msb_cond]
  split <;> rfl

/-! ## PAT -/

@[simp] theorem patBuffer_length (n : Nat) (p : Pattern) : (patBuffer n p).length = n := by simp [patBuffer]

/-- The contents of every element after Finish. -/
theorem patBuffer_getD (n : Nat) (p : Pattern) (i : Nat) :
    (patBuffer n p).getD i 0 = if i < n then BitVec.ofNat 32 (p.getD i 0) else 0 := by
  by_cases h : i < n <;> simp [patBuffer, h, List.getD_eq_getElem?_getD]

/-- Clearing PAT: an error leaves every element 0. -/
@[simp] theorem patBuffer_nil (n : Nat) : patBuffer n [] = List.replicate n 0 := by
  apply List.ext_getElem <;> simp [patBuffer]

/-- The buffer is the pattern padded with 0, when the pattern fits. -/
theorem patBuffer_eq_append {n : Nat} {p : Pattern} (h : p.length ≤ n) :
    patBuffer n p = p.map (BitVec.ofNat 32) ++ List.replicate (n - p.length) 0 := by
  apply List.ext_getElem
  · simp; omega
  · intro i h1 h2
    simp only [patBuffer_length] at h1
    by_cases hi : i < p.length
    · simp [patBuffer, hi]
    · rw [List.getElem_append_right (by simpa using hi)]
      simp [patBuffer, hi]

/-! ## The pattern invariant -/

/-- R104, clause by clause. -/
theorem validPattern_iff {n : Nat} {p : Pattern} : validPattern n p = true ↔
    1 ≤ p.length ∧ p.length ≤ n ∧ ∀ d ∈ p, 1 ≤ d ∧ d < 2 ^ 32 := by
  have h : ∀ d : Nat, d ≤ 2 ^ 32 - 1 ↔ d < 2 ^ 32 := fun d => by omega
  simp only [validPattern, validDuration, Bool.and_eq_true, decide_eq_true_eq, List.all_eq_true, and_assoc, h]

/-! ## Completion -/

/-- The condition under which Finish completes with status OK. -/
def Fits (n : Nat) (p : Pattern) : Prop := validPattern n p = true ∧ p.length < 2 ^ 32

/-- Finish with status OK and a pattern that fits writes the results. -/
theorem finish_ok {f : Word} {p : Pattern} {s : State} (h : Fits s.config.maxPatternLen p) :
    finish .ok f p s = .next (s.writeResults .ok f p) := by
  rw [finish, if_neg (fun hc => hc.2 h)]

/-- Everything Finish can answer. -/
theorem finish_next {st : Status} {f : Word} {p : Pattern} {s t : State} (h : finish st f p s = .next t) :
    t = s.writeResults st f p ∧ (st = .ok → Fits s.config.maxPatternLen p) := by
  unfold finish at h
  split at h
  · cases h
  · rename_i hc
    cases h
    exact ⟨rfl, fun hst => not_not.mp fun hv => hc ⟨hst, hv⟩⟩

/-- Raising an error always completes. -/
theorem raise_eq {st : Status} (h : st ≠ .ok) (s : State) : raise st s = .next (s.writeResults st 0 []) := by
  rw [raise, finish, if_neg (fun hc => h hc.1)]

@[simp] theorem complete_ok (f : Word) (p : Pattern) (s : State) : complete f (.ok p) s = finish .ok f p s := rfl
@[simp] theorem complete_error (f : Word) (st : Status) (s : State) : complete f (.error st) s = raise st s := rfl

/-! ## Fetch -/

/-- No register of the list is unwritten exactly when the host has written each of them. -/
theorem firstUnwritten_eq_none {s : State} {ps : List Port} :
    s.firstUnwritten ps = none ↔ ∀ p ∈ ps, (s.port p).written = true := by
  simp [State.firstUnwritten]

/-- Everything a fetch can give but a fault: REQ is written; where REQ is legal, so is every register the instruction
reads. -/
theorem fetch_ok {s : State} {r : Except Reserved Instr} (h : fetch s = .ok r) :
    s.req.written = true ∧ decode s.config.nApp s.request = r ∧
      ∀ i, r = .ok i → ∀ p ∈ operandPorts i, (s.port p).written = true := by
  unfold fetch at h
  split at h
  · cases h
  rename_i hreq
  have hw : s.req.written = true := firstUnwritten_eq_none.mp hreq .req (by simp)
  split at h
  · rename_i hd
    cases h
    exact ⟨hw, hd, fun _ hi => by cases hi⟩
  · rename_i i hd
    split at h
    · cases h
    · rename_i hp
      cases h
      refine ⟨hw, hd, fun j hj => ?_⟩
      cases hj
      exact firstUnwritten_eq_none.mp hp

/-- A fetch from written registers gives what the decoder gives. -/
theorem fetch_eq {s : State} (hw : s.req.written = true)
    (hp : ∀ i, decode s.config.nApp s.request = .ok i → ∀ p ∈ operandPorts i, (s.port p).written = true) :
    fetch s = .ok (decode s.config.nApp s.request) := by
  have h1 : s.firstUnwritten [.req] = none := firstUnwritten_eq_none.mpr (by simpa [State.port] using hw)
  unfold fetch
  rw [h1]
  simp only
  split
  · rename_i hd; rw [hd]
  · rename_i i hd
    rw [firstUnwritten_eq_none.mpr (hp i hd), hd]

end Machine

end Sys2Proof
end

