-- ==== Sys2Proof/Laws/Patterns.lean ====
section
/-! SUPPORT. What the encoders build: the length, the elements and the validity of each frame, read off one list of bits
per frame. -/

namespace Sys2Proof.Machine

/-! ## A list of bits, two elements a bit -/

section Pairs

variable (f g : Bool → Nat)

theorem pairs_length (bits : List Bool) : (bits.flatMap (fun b => [f b, g b])).length = 2 * bits.length := by
  induction bits with
  | nil => rfl
  | cons b l ih => simp only [List.flatMap_cons, List.length_append, ih, List.length_cons, List.length_nil]; omega

theorem pairs_even (bits : List Bool) (n : Nat) (h : n < bits.length) :
    (bits.flatMap (fun b => [f b, g b]))[2 * n]? = some (f bits[n]) := by
  induction bits generalizing n with
  | nil => simp at h
  | cons b l ih =>
    cases n with
    | zero => rfl
    | succ n =>
      have := ih n (by simpa using h)
      simpa [Nat.mul_add] using this

theorem pairs_odd (bits : List Bool) (n : Nat) (h : n < bits.length) :
    (bits.flatMap (fun b => [f b, g b]))[2 * n + 1]? = some (g bits[n]) := by
  induction bits generalizing n with
  | nil => simp at h
  | cons b l ih =>
    cases n with
    | zero => rfl
    | succ n =>
      have := ih n (by simpa using h)
      simpa [Nat.mul_add, Nat.add_right_comm] using this

end Pairs

/-! ## SIRC -/

/-- The bits of a field, least-significant first. -/
def fieldBits {n : Nat} (v : BitVec n) (w : Nat) : List Bool := (List.range w).map (bitOf v)

@[simp] theorem fieldBits_length {n : Nat} (v : BitVec n) (w : Nat) : (fieldBits v w).length = w := by simp [fieldBits]

@[simp] theorem fieldBits_getElem {n : Nat} (v : BitVec n) (w i : Nat) (h : i < (fieldBits v w).length) :
    (fieldBits v w)[i] = bitOf v i := by simp [fieldBits]

/-- A SIRC frame as the start bit and one list of bits (R141, R143). -/
def sircBits (t : Nat) (bits : List Bool) : Pattern := sircStart t ++ bits.flatMap (sircBit t)

theorem sircField_eq {n : Nat} (t : Nat) (v : BitVec n) (w : Nat) :
    sircField t v w = (fieldBits v w).flatMap (sircBit t) := by
  simp [sircField, fieldBits, List.flatMap_map]

/-- The SIRC-20 frame carries its 20 bits in the order of R142. -/
theorem sirc20Frame_eq (t : Nat) (cmd : BitVec 7) (dev : BitVec 5) (ext : BitVec 8) :
    sirc20Frame t cmd dev ext = sircBits t (fieldBits cmd 7 ++ fieldBits dev 5 ++ fieldBits ext 8) := by
  simp [sirc20Frame, sircBits, sircField_eq]

/-- The generalised frame carries its command bits, then its address bits (R154). -/
theorem sircFrame_eq (cmd addr : Word) (ncmd naddr : Nat) :
    sircFrame cmd addr ncmd naddr = sircBits sircGenUnit (fieldBits cmd ncmd ++ fieldBits addr naddr) := by
  simp [sircFrame, sircBits, sircField_eq]

@[simp] theorem sircBits_length (t : Nat) (bits : List Bool) : (sircBits t bits).length = 2 + 2 * bits.length := by
  simp only [sircBits, List.length_append, sircStart, List.length_cons, List.length_nil]
  rw [show sircBit t = fun b => [if b then 2 * t else t, t] from rfl, pairs_length]

/-- Element 0 is the start mark and element 1 its space (R141). -/
theorem sircBits_start (t : Nat) (bits : List Bool) :
    (sircBits t bits).getD 0 0 = 4 * t ∧ (sircBits t bits).getD 1 0 = t := ⟨rfl, rfl⟩

/-- Bit n is carried by the mark at 2 + 2n, and a space of 1·T follows it (R142, R143). -/
theorem sircBits_bit (t : Nat) (bits : List Bool) (n : Nat) (h : n < bits.length) :
    (sircBits t bits).getD (2 + 2 * n) 0 = (if bits[n] then 2 * t else t) ∧
    (sircBits t bits).getD (3 + 2 * n) 0 = t := by
  have e : sircBit t = fun b => [if b then 2 * t else t, t] := rfl
  have h1 := pairs_even (fun b => if b then 2 * t else t) (fun _ => t) bits n h
  have h2 := pairs_odd (fun b => if b then 2 * t else t) (fun _ => t) bits n h
  constructor
  · rw [show 2 + 2 * n = 2 * n + 2 by omega]
    simp [sircBits, sircStart, e, List.getD_eq_getElem?_getD, h1]
  · rw [show 3 + 2 * n = 2 * n + 1 + 2 by omega]
    simp [sircBits, sircStart, e, List.getD_eq_getElem?_getD, h2]

/-- Every element of a SIRC frame is T, 2T or 4T (R144, R156). -/
theorem mem_sircBits {t : Nat} {bits : List Bool} {d : Nat} (h : d ∈ sircBits t bits) :
    d = t ∨ d = 2 * t ∨ d = 4 * t := by
  simp only [sircBits, sircStart, sircBit, List.mem_append, List.mem_cons, List.not_mem_nil, or_false,
    List.mem_flatMap] at h
  rcases h with (h | h) | ⟨b, _, h | h⟩
  · exact .inr (.inr h)
  · exact .inl h
  · cases b <;> simp_all
  · exact .inl h

/-- A SIRC frame at a unit time in 1..0x3FFFFFFF fits a buffer long enough for its bits. -/
theorem sircBits_fits {t : Nat} {bits : List Bool} {n : Nat} (h1 : 1 ≤ t) (h2 : t ≤ 0x3FFFFFFF)
    (hn : 2 + 2 * bits.length ≤ n) (hb : bits.length ≤ 64) : Fits n (sircBits t bits) := by
  refine ⟨validPattern_iff.mpr ⟨by simp only [sircBits_length]; omega, by simpa using hn, fun d hd => ?_⟩, by simp; omega⟩
  rcases mem_sircBits hd with rfl | rfl | rfl <;> omega

/-! ## NEC -/

/-- The four bytes of a NEC frame, in order (R122). -/
def necBytes (a c : BitVec 8) : List (BitVec 8) := [a, ~~~a, c, ~~~c]

/-- The 32 bits of a NEC frame, in order (R122). -/
def necBits (a c : BitVec 8) : List Bool := (necBytes a c).flatMap (fun b => fieldBits b 8)

/-- The NEC frame is the header, its 32 bits and the stop mark (R121 to R124). -/
theorem necFrame_eq (a c : BitVec 8) : necFrame a c = [9000, 4500] ++ (necBits a c).flatMap necBit ++ [560] := by
  have h : necByte = fun b => (fieldBits b 8).flatMap necBit := by
    funext b; simp [necByte, fieldBits, List.flatMap_map]
  simp only [necFrame, necBits, necBytes, h, List.flatMap_assoc, necHdrMark, necHdrSpace, necStopMark]

@[simp] theorem necBits_length (a c : BitVec 8) : (necBits a c).length = 32 := by simp [necBits, necBytes]

theorem necFrame_length (a c : BitVec 8) : (necFrame a c).length = 67 := by
  have := pairs_length (fun _ => necBitMark) (fun b => if b then necOneSpace else necZeroSpace) (necBits a c)
  simp only [necFrame_eq, List.length_append, List.length_cons, List.length_nil,
    show necBit = fun b => [necBitMark, if b then necOneSpace else necZeroSpace] from rfl, this, necBits_length]

/-- Every element of a NEC frame is 560, 1690, 4500 or 9000 (R125). -/
theorem mem_necFrame {a c : BitVec 8} {d : Nat} (h : d ∈ necFrame a c) :
    d = 560 ∨ d = 1690 ∨ d = 4500 ∨ d = 9000 := by
  rw [necFrame_eq] at h
  simp only [necBit, necBitMark, necOneSpace, necZeroSpace, List.mem_append, List.mem_cons, List.not_mem_nil, or_false,
    List.mem_flatMap] at h
  rcases h with ((h | h) | ⟨b, _, h | h⟩) | h
  · simp [h]
  · simp [h]
  · simp [h]
  · cases b <;> simp_all
  · simp [h]

/-- Bit n of the frame is carried by the space at 3 + 2n, after a mark of 560 (R122, R123). -/
theorem necFrame_bit (a c : BitVec 8) (n : Nat) (h : n < (necBits a c).length) :
    (necFrame a c).getD (2 + 2 * n) 0 = 560 ∧
    (necFrame a c).getD (3 + 2 * n) 0 = if (necBits a c)[n] then 1690 else 560 := by
  have e : necBit = fun b => [necBitMark, if b then necOneSpace else necZeroSpace] := rfl
  have h0 := pairs_length (fun _ => necBitMark) (fun b => if b then necOneSpace else necZeroSpace) (necBits a c)
  have h1 := pairs_even (fun _ => necBitMark) (fun b => if b then necOneSpace else necZeroSpace) (necBits a c) n h
  have h2 := pairs_odd (fun _ => necBitMark) (fun b => if b then necOneSpace else necZeroSpace) (necBits a c) n h
  rw [necFrame_eq, e, List.getD_eq_getElem?_getD, List.getD_eq_getElem?_getD]
  constructor
  · rw [List.getElem?_append_left (by simp [h0] at h ⊢; omega), show 2 + 2 * n = 2 * n + 2 by omega]
    simp [h1]; rfl
  · rw [List.getElem?_append_left (by simp [h0] at h ⊢; omega), show 3 + 2 * n = 2 * n + 1 + 2 by omega]
    simp [h2]; rfl

/-- The header and the stop mark (R121, R124). -/
theorem necFrame_ends (a c : BitVec 8) :
    (necFrame a c).getD 0 0 = 9000 ∧ (necFrame a c).getD 1 0 = 4500 ∧ (necFrame a c).getD 66 0 = 560 := by
  have h0 := pairs_length (fun _ => necBitMark) (fun b => if b then necOneSpace else necZeroSpace) (necBits a c)
  refine ⟨rfl, rfl, ?_⟩
  rw [necFrame_eq, List.getD_eq_getElem?_getD, List.getElem?_append_right] <;>
    simp [show necBit = fun b => [necBitMark, if b then necOneSpace else necZeroSpace] from rfl, h0]

/-- Bit i of byte j is bit 8j + i of the frame (R122). -/
theorem necBits_getElem (a c : BitVec 8) (j i : Nat) (hj : j < (necBytes a c).length) (hi : i < 8)
    (h : 8 * j + i < (necBits a c).length) : (necBits a c)[8 * j + i] = bitOf (necBytes a c)[j] i := by
  have hj' : j < 4 := hj
  interval_cases j <;> interval_cases i <;> rfl

/-- A NEC frame fits every buffer of at least 67 elements (R125). -/
theorem necFrame_fits (a c : BitVec 8) {n : Nat} (hn : 67 ≤ n) : Fits n (necFrame a c) := by
  refine ⟨validPattern_iff.mpr ⟨by simp [necFrame_length], by simpa [necFrame_length] using hn, fun d hd => ?_⟩,
    by simp [necFrame_length]⟩
  rcases mem_necFrame hd with rfl | rfl | rfl | rfl <;> omega

/-! ## Captured patterns -/

/-- The captured pattern of a legal entry fits the buffer (R30, R32). -/
theorem capturedPattern_fits {n : Nat} {clen : Word} {cdur : List Word} {carrier : Word}
    (h : Entry.wf n (.captured clen cdur carrier) = true) : Fits n (capturedPattern clen cdur) := by
  simp only [Entry.wf, Bool.and_eq_true, decide_eq_true_eq, List.all_eq_true] at h
  obtain ⟨⟨⟨⟨h1, h2⟩, h3⟩, h4⟩, _⟩ := h
  have hl : (capturedPattern clen cdur).length = clen.toNat := by simp [capturedPattern, h3]
  refine ⟨validPattern_iff.mpr ⟨by omega, by omega, fun d hd => ?_⟩, by rw [hl]; exact clen.isLt⟩
  obtain ⟨w, hw, rfl⟩ := List.mem_map.mp hd
  have hne := h4 w (List.mem_of_mem_take hw)
  have : w.toNat ≠ 0 := fun e => hne (BitVec.eq_of_toNat_eq e)
  exact ⟨by omega, w.isLt⟩

end Sys2Proof.Machine
end

