-- ==== Sys2Proof/Laws/PerInstr.lean ====
section
/-! SUPPORT. Families of facts about the instructions as syntax, one lemma per constructor of Instr. -/

namespace Sys2Proof.Laws

/-! ## EncodeFields: an encoded request has its row's mnemonic, and only its row's bits in REQ -/

/-- The encoded REQ word has both reserved fields 0, matches the row of R84 that bears the instruction's mnemonic, and
matches no other row. -/
def EncodeFields.Statement (i : Instr) : Prop :=
  (encode i).rsv0 = 0 ∧ (encode i).rsv1 = 0 ∧
    opcodeRows.filter (fun row => row.matches (encode i).req) = opcodeRows.filter (fun row => row.mnemonic == i.mnemonic)

theorem EncodeFields.resolve (key : Key) : EncodeFields.Statement (.resolve key) := by
  refine ⟨Request.rsv0_reqWord _ _ _ _ _ _, Request.rsv1_reqWord _ _ _ _ _ _, ?_⟩
  simp only [encode, Instr.mnemonic]
  generalize key.code = k
  revert k
  decide +kernel

theorem EncodeFields.encNec (opa opb : Word) : EncodeFields.Statement (.encNec opa opb) :=
  ⟨Request.rsv0_reqWord _ _ _ _ _ _, Request.rsv1_reqWord _ _ _ _ _ _, by simp only [encode, Instr.mnemonic]; decide +kernel⟩

theorem EncodeFields.encSirc20 (opa opb opc opd : Word) : EncodeFields.Statement (.encSirc20 opa opb opc opd) :=
  ⟨Request.rsv0_reqWord _ _ _ _ _ _, Request.rsv1_reqWord _ _ _ _ _ _, by simp only [encode, Instr.mnemonic]; decide +kernel⟩

theorem EncodeFields.encSirc (opa opb opc opd : Word) : EncodeFields.Statement (.encSirc opa opb opc opd) :=
  ⟨Request.rsv0_reqWord _ _ _ _ _ _, Request.rsv1_reqWord _ _ _ _ _ _, by simp only [encode, Instr.mnemonic]; decide +kernel⟩

end Sys2Proof.Laws
end

