-- ==== Sys2Proof/Laws/Step.lean ====
section
/-! SUPPORT. What an instruction, a request, a host move and a step can do, said once: every later proof about them
starts from these. -/

namespace Sys2Proof.Machine

/-! ## The encoders as instructions -/

/-- ENC.NEC completes in any buffer of at least 67 elements. -/
theorem exec_encNec {s : State} (hn : 67 ≤ s.config.maxPatternLen) (opa opb : Word) :
    exec (.encNec opa opb) s = .next (s.writeResults .ok 0 (necFrame (low8 opa) (low8 opb))) :=
  finish_ok (necFrame_fits _ _ hn)

/-- EncSirc20 with a unit time in its range. -/
theorem encSirc20Pattern_ok {opd : Word} (h : unitTimeInvalid (unitTime opd) = false) (opa opb opc : Word) :
    encSirc20Pattern opa opb opc opd = .ok (sirc20Frame (unitTime opd) (low7 opa) (low5 opb) (low8 opc)) := by
  simp [encSirc20Pattern, h]

theorem unitTimeInvalid_eq_false {t : Nat} : unitTimeInvalid t = false ↔ 1 ≤ t ∧ t ≤ 0x3FFFFFFF := by
  simp only [unitTimeInvalid, Bool.or_eq_false_iff, decide_eq_false_iff_not]
  simp only [sircUnitMax]
  omega

/-- A SIRC-20 frame at a unit time in its range fits every buffer of at least 42 elements (R144). -/
theorem sirc20Frame_fits {t n : Nat} (h : unitTimeInvalid t = false) (hn : 42 ≤ n) (cmd : BitVec 7) (dev : BitVec 5)
    (ext : BitVec 8) : Fits n (sirc20Frame t cmd dev ext) := by
  obtain ⟨h1, h2⟩ := unitTimeInvalid_eq_false.mp h
  rw [sirc20Frame_eq]
  exact sircBits_fits h1 h2 (by simpa using hn) (by simp)

/-- ENC.SIRC20 with a unit time in its range completes in any buffer of at least 42 elements. -/
theorem exec_encSirc20 {s : State} (hn : 42 ≤ s.config.maxPatternLen) {opd : Word}
    (h : unitTimeInvalid (unitTime opd) = false) (opa opb opc : Word) :
    exec (.encSirc20 opa opb opc opd) s =
      .next (s.writeResults .ok 0 (sirc20Frame (unitTime opd) (low7 opa) (low5 opb) (low8 opc))) := by
  show complete 0 (encSirc20Pattern opa opb opc opd) s = _
  rw [encSirc20Pattern_ok h, complete_ok, finish_ok (sirc20Frame_fits h hn _ _ _)]

/-- ENC.SIRC20 with a unit time outside its range raises (R146). -/
theorem exec_encSirc20_invalid {opd : Word} (h : unitTimeInvalid (unitTime opd) = true) (opa opb opc : Word)
    (s : State) : exec (.encSirc20 opa opb opc opd) s = .next (s.writeResults .invalidParameters 0 []) := by
  show complete 0 (encSirc20Pattern opa opb opc opd) s = _
  rw [encSirc20Pattern, if_pos h, complete_error, raise_eq (by decide)]

theorem bitCountsInvalid_eq_false {total ncmd : Int} :
    bitCountsInvalid total ncmd = false ↔ 0 ≤ ncmd ∧ ncmd ≤ total ∧ total ≤ 64 := by
  simp only [bitCountsInvalid, Bool.or_eq_false_iff, decide_eq_false_iff_not]
  simp only [maxSircTotalBits]
  omega

/-- A generalised frame with legal counts fits every buffer of at least 130 elements (R156). -/
theorem sircFrame_fits {total ncmd : Int} (h : bitCountsInvalid total ncmd = false) {n : Nat} (hn : 130 ≤ n)
    (cmd addr : Word) : Fits n (sircFrame cmd addr ncmd.toNat (total - ncmd).toNat) := by
  obtain ⟨h1, h2, h3⟩ := bitCountsInvalid_eq_false.mp h
  rw [sircFrame_eq]
  refine sircBits_fits (by decide) (by decide) ?_ ?_ <;>
    simp only [List.length_append, fieldBits_length] <;> omega

/-- ENC.SIRC with legal counts completes in any buffer of at least 130 elements. -/
theorem exec_encSirc {s : State} (hn : 130 ≤ s.config.maxPatternLen) {opc opd : Word}
    (h : bitCountsInvalid (bitCount opc) (bitCount opd) = false) (opa opb : Word) :
    exec (.encSirc opa opb opc opd) s =
      .next (s.writeResults .ok 0 (sircFrame opa opb (bitCount opd).toNat (bitCount opc - bitCount opd).toNat)) := by
  show complete 0 (encSircPattern opa opb opc opd) s = _
  rw [encSircPattern, h, if_neg (by simp), complete_ok, finish_ok (sircFrame_fits h hn _ _)]

/-- ENC.SIRC with illegal counts raises (R151, R153). -/
theorem exec_encSirc_invalid {opc opd : Word} (h : bitCountsInvalid (bitCount opc) (bitCount opd) = true)
    (opa opb : Word) (s : State) :
    exec (.encSirc opa opb opc opd) s = .next (s.writeResults .invalidParameters 0 []) := by
  show complete 0 (encSircPattern opa opb opc opd) s = _
  rw [encSircPattern, if_pos h, complete_error, raise_eq (by decide)]

/-! ## RESOLVE -/

/-- The entry's own narrow field, widened to an operand word and masked again, is the field (R170). -/
theorem low8_setWidth (v : BitVec 8) : low8 (v.setWidth 32) = v := by
  apply BitVec.eq_of_getLsbD_eq; intro i hi; simp [low8, hi]; omega
theorem low7_setWidth (v : BitVec 7) : low7 (v.setWidth 32) = v := by
  apply BitVec.eq_of_getLsbD_eq; intro i hi; simp [low7, hi]; omega
theorem low5_setWidth (v : BitVec 5) : low5 (v.setWidth 32) = v := by
  apply BitVec.eq_of_getLsbD_eq; intro i hi; simp [low5, hi]; omega

/-- RESOLVE of an EMPTY slot (R176). -/
theorem exec_resolve_empty {s : State} {key : Key} (h : s.config.table.lookup key.code = .empty) :
    exec (.resolve key) s = .next (s.writeResults .noPatternDefined 0 []) := by
  show resolveEntry (s.config.table.lookup key.code) s = _
  rw [h]
  exact raise_eq (by decide) s

/-- RESOLVE of a NEC entry (R173). -/
theorem exec_resolve_nec {s : State} {key : Key} {addr cmd : BitVec 8} {carrier : Word}
    (hn : 67 ≤ s.config.maxPatternLen) (h : s.config.table.lookup key.code = .nec addr cmd carrier) :
    exec (.resolve key) s = .next (s.writeResults .ok carrier (necFrame addr cmd)) := by
  show resolveEntry (s.config.table.lookup key.code) s = _
  rw [h]
  simp only [resolveEntry, encNecPattern, low8_setWidth]
  exact finish_ok (necFrame_fits _ _ hn)

/-- RESOLVE of a SIRC entry whose unit time is in its range (R174). -/
theorem exec_resolve_sirc {s : State} {key : Key} {cmd : BitVec 7} {dev : BitVec 5} {ext : BitVec 8}
    {unit carrier : Word} (hn : 42 ≤ s.config.maxPatternLen) (hu : unitTimeInvalid unit.toNat = false)
    (h : s.config.table.lookup key.code = .sirc cmd dev ext unit carrier) :
    exec (.resolve key) s = .next (s.writeResults .ok carrier (sirc20Frame unit.toNat cmd dev ext)) := by
  show resolveEntry (s.config.table.lookup key.code) s = _
  rw [h]
  simp only [resolveEntry, encSirc20Pattern_ok (show unitTimeInvalid (unitTime unit) = false from hu), complete_ok,
    low8_setWidth, low7_setWidth, low5_setWidth]
  exact finish_ok (sirc20Frame_fits hu hn _ _ _)

/-- RESOLVE of a SIRC entry whose unit time is out of range, which no well-formed configuration has (R170, R201). -/
theorem exec_resolve_sirc_invalid {s : State} {key : Key} {cmd : BitVec 7} {dev : BitVec 5} {ext : BitVec 8}
    {unit carrier : Word} (hu : unitTimeInvalid unit.toNat = true)
    (h : s.config.table.lookup key.code = .sirc cmd dev ext unit carrier) :
    exec (.resolve key) s = .next (s.writeResults .invalidParameters 0 []) := by
  show resolveEntry (s.config.table.lookup key.code) s = _
  rw [h]
  simp only [resolveEntry, encSirc20Pattern, unitTime, hu, if_true, complete_error]
  exact raise_eq (by decide) s

/-- RESOLVE of a captured entry whose pattern fits (R175). -/
theorem exec_resolve_captured {s : State} {key : Key} {clen : Word} {cdur : List Word} {carrier : Word}
    (hf : Fits s.config.maxPatternLen (capturedPattern clen cdur))
    (h : s.config.table.lookup key.code = .captured clen cdur carrier) :
    exec (.resolve key) s = .next (s.writeResults .ok carrier (capturedPattern clen cdur)) := by
  show resolveEntry (s.config.table.lookup key.code) s = _
  rw [h]
  exact finish_ok hf

/-! ## Any instruction -/

/-- What one completion writes: a status other than NONE, a carrier and a pattern that fits where the status is OK. -/
structure Completion (s t : State) (st : Status) (f : Word) (p : Pattern) : Prop where
  writes : t = s.writeResults st f p
  not_none : st ≠ .none
  fits : st = .ok → Fits s.config.maxPatternLen p

/-- A completion that raises. -/
theorem raise_completion {st : Status} {s t : State} (hst : st ≠ .none) (h : raise st s = .next t) :
    Completion s t st 0 [] :=
  ⟨(finish_next h).1, hst, (finish_next h).2⟩

/-- A completion with status OK. -/
theorem finish_completion {f : Word} {p : Pattern} {s t : State} (h : finish .ok f p s = .next t) :
    Completion s t .ok f p :=
  ⟨(finish_next h).1, by decide, (finish_next h).2⟩

/-- A completion of an encoder that gives a pattern or raises. -/
theorem complete_completion {f : Word} {r : Except Status Pattern} {s t : State} (hr : r ≠ .error .none)
    (h : complete f r s = .next t) : ∃ st f p, Completion s t st f p := by
  cases r with
  | ok p => exact ⟨_, _, _, finish_completion h⟩
  | error st => exact ⟨_, _, _, raise_completion (fun e => hr (by rw [e])) h⟩

theorem encSirc20Pattern_ne_none (a b c d : Word) : encSirc20Pattern a b c d ≠ .error .none := by
  unfold encSirc20Pattern; split <;> simp

theorem encSircPattern_ne_none (a b c d : Word) : encSircPattern a b c d ≠ .error .none := by
  unfold encSircPattern; split <;> simp

/-- Everything an instruction can do when it goes on: one completion (R106). -/
theorem exec_next {i : Instr} {s t : State} (h : exec i s = .next t) : ∃ st f p, Completion s t st f p := by
  cases i with
  | resolve key =>
    change resolveEntry (s.tableRead key.code) s = .next t at h
    unfold resolveEntry at h
    split at h
    · exact ⟨_, _, _, raise_completion (by decide) h⟩
    · exact ⟨_, _, _, finish_completion h⟩
    · exact complete_completion (encSirc20Pattern_ne_none _ _ _ _) h
    · exact ⟨_, _, _, finish_completion h⟩
  | encNec a b => exact ⟨_, _, _, finish_completion h⟩
  | encSirc20 a b c d => exact complete_completion (encSirc20Pattern_ne_none _ _ _ _) h
  | encSirc a b c d => exact complete_completion (encSircPattern_ne_none _ _ _ _) h

/-- Under a well-formed configuration, the meaning of an instruction depends on the state only through what its
completion leaves alone: it writes the same completion in every state with that configuration. -/
theorem exec_writes {c : Config} (hc : c.wf = true) (i : Instr) :
    ∃ st f p, st ≠ .none ∧ (st = .ok → Fits c.maxPatternLen p) ∧
      ∀ s : State, s.config = c → exec i s = .next (s.writeResults st f p) := by
  have hn := Config.wf_maxPatternLen hc
  cases i with
  | resolve key =>
    have hl := Config.wf_lookup hc key.code
    cases he : c.table.lookup key.code with
    | empty => exact ⟨.noPatternDefined, 0, [], by decide, nofun, fun s hs => exec_resolve_empty (by rw [hs]; exact he)⟩
    | nec addr cmd carrier =>
      exact ⟨.ok, carrier, _, by decide, fun _ => necFrame_fits addr cmd (by omega),
        fun s hs => exec_resolve_nec (by rw [hs]; omega) (by rw [hs]; exact he)⟩
    | sirc cmd dev ext unit carrier =>
      have hu : unitTimeInvalid unit.toNat = false := by
        rw [he, Entry.wf, Bool.and_eq_true] at hl
        simpa using hl.1
      exact ⟨.ok, carrier, _, by decide, fun _ => sirc20Frame_fits hu (by omega) cmd dev ext,
        fun s hs => exec_resolve_sirc (by rw [hs]; omega) hu (by rw [hs]; exact he)⟩
    | captured clen cdur carrier =>
      have hf := capturedPattern_fits (he ▸ hl)
      exact ⟨.ok, carrier, _, by decide, fun _ => hf,
        fun s hs => exec_resolve_captured (by rw [hs]; exact hf) (by rw [hs]; exact he)⟩
  | encNec a b =>
    exact ⟨.ok, 0, _, by decide, fun _ => necFrame_fits (low8 a) (low8 b) (by omega),
      fun s hs => exec_encNec (by rw [hs]; omega) a b⟩
  | encSirc20 a b cc d =>
    cases hu : unitTimeInvalid (unitTime d) with
    | false =>
      exact ⟨.ok, 0, _, by decide, fun _ => sirc20Frame_fits hu (by omega) (low7 a) (low5 b) (low8 cc),
        fun s hs => exec_encSirc20 (by rw [hs]; omega) hu a b cc⟩
    | true => exact ⟨.invalidParameters, 0, [], by decide, nofun, fun s _ => exec_encSirc20_invalid hu a b cc s⟩
  | encSirc a b cc d =>
    cases hu : bitCountsInvalid (bitCount cc) (bitCount d) with
    | false =>
      exact ⟨.ok, 0, _, by decide, fun _ => sircFrame_fits hu (by omega) a b,
        fun s hs => exec_encSirc (by rw [hs]; omega) hu a b⟩
    | true => exact ⟨.invalidParameters, 0, [], by decide, nofun, fun s _ => exec_encSirc_invalid hu a b s⟩

/-- Finish looks at no field of the state but the configuration. -/
theorem finish_congr {st : Status} {f : Word} {p : Pattern} {s u : State} (hc : s.config = u.config) :
    (∃ s', finish st f p s = .next s') ↔ ∃ u', finish st f p u = .next u' := by
  simp only [finish, hc]
  split <;> simp

/-- An instruction that goes on in one state goes on in every state with the same configuration, and writes the same
completion there. -/
theorem exec_congr {i : Instr} {s t : State} (h : exec i s = .next t) :
    ∃ st f p, t = s.writeResults st f p ∧
      ∀ u : State, u.config = s.config → exec i u = .next (u.writeResults st f p) := by
  have fin : ∀ st f p, finish st f p s = .next t → ∀ g : State → Result,
      (∀ u : State, u.config = s.config → g u = finish st f p u) → ∃ st f p, t = s.writeResults st f p ∧
      ∀ u : State, u.config = s.config → g u = .next (u.writeResults st f p) := by
    intro st f p h g hg
    refine ⟨st, f, p, (finish_next h).1, fun u hu => ?_⟩
    obtain ⟨u', hu'⟩ := (finish_congr hu).mpr ⟨t, h⟩
    rw [hg u hu, hu', (finish_next hu').1]
  have com : ∀ f r, complete f r s = .next t → ∀ g : State → Result,
      (∀ u : State, u.config = s.config → g u = complete f r u) → ∃ st f p, t = s.writeResults st f p ∧
      ∀ u : State, u.config = s.config → g u = .next (u.writeResults st f p) := by
    intro f r h g hg
    cases r with
    | ok p => exact fin _ _ _ h g hg
    | error st => exact fin _ _ _ h g hg
  cases i with
  | resolve key =>
    have hg : ∀ u : State, u.config = s.config →
        exec (.resolve key) u = resolveEntry (s.tableRead key.code) u := fun u hu => by
      simp only [exec, execResolve, State.tableRead, hu]
    rw [hg s rfl] at h
    cases he : s.tableRead key.code with
    | empty => rw [he] at h hg; exact fin .noPatternDefined 0 [] h _ hg
    | nec addr cmd carrier => rw [he] at h hg; exact fin .ok carrier _ h _ hg
    | sirc cmd dev ext unit carrier => rw [he] at h hg; exact com carrier _ h _ hg
    | captured clen cdur carrier => rw [he] at h hg; exact fin .ok carrier _ h _ hg
  | encNec a b => exact fin .ok 0 (encNecPattern a b) h _ (fun _ _ => rfl)
  | encSirc20 a b c d => exact com 0 (encSirc20Pattern a b c d) h _ (fun _ _ => rfl)
  | encSirc a b c d => exact com 0 (encSircPattern a b c d) h _ (fun _ _ => rfl)

/-- A completion changes nothing an instruction looks at: what runs after it runs as it would have run before (R26). -/
theorem exec_writeResults (s : State) (st : Status) (f : Word) (p : Pattern) (j : Instr) :
    exec j (s.writeResults st f p) = exec j s := by
  have fin : ∀ st' f' p', finish st' f' p' (s.writeResults st f p) = finish st' f' p' s := fun _ _ _ => rfl
  have com : ∀ f' r, complete f' r (s.writeResults st f p) = complete f' r s := fun f' r => by
    cases r <;> exact fin _ _ _
  cases j with
  | resolve key =>
    show resolveEntry (s.config.table.lookup key.code) _ = resolveEntry (s.config.table.lookup key.code) s
    cases s.config.table.lookup key.code with
    | empty => exact fin .noPatternDefined 0 []
    | nec addr cmd carrier => exact fin .ok carrier _
    | sirc cmd dev ext unit carrier => exact com carrier _
    | captured clen cdur carrier => exact fin .ok carrier _
  | encNec a b => exact fin .ok 0 _
  | encSirc20 a b c d => exact com 0 (encSirc20Pattern a b c d)
  | encSirc a b c d => exact com 0 (encSircPattern a b c d)

/-! ## A request, a move, a step -/

/-- Everything a request can do when it goes on: one completion. -/
theorem issue_next {s t : State} (h : issue s = .next t) : ∃ st f p, Completion s t st f p := by
  unfold issue at h
  split at h
  · cases h
  · exact ⟨_, _, _, raise_completion (by decide) h⟩
  · exact exec_next h

/-- A request that is a reserved encoding (R81). -/
theorem issue_reserved {s : State} {why : Reserved} (h : fetch s = .ok (.error why)) :
    issue s = .next (s.writeResults .reservedEncoding 0 []) := by
  rw [issue, h]
  exact raise_eq (by decide) s

/-- A request that is an instruction. -/
theorem issue_exec {s : State} {i : Instr} (h : fetch s = .ok (.ok i)) : issue s = exec i s := by
  rw [issue, h]

/-- Everything a host move can do when it goes on. -/
theorem act_next {a : HostAction} {s t : State} (h : act a s = .next t) :
    (∃ p v, a = .write p v ∧ t = s.writePort p v) ∨
    (a = .issue ∧ issue s = .next t) ∨
    (a = .reset ∧ t = s.hostReset) ∨
    (t = s ∧ ((∃ r, a = .read r) ∨ (a = .transmit ∧ s.handOff.isSome = true))) := by
  cases a with
  | write p v => exact .inl ⟨p, v, rfl, by cases h; rfl⟩
  | issue => exact .inr (.inl ⟨rfl, h⟩)
  | reset => exact .inr (.inr (.inl ⟨rfl, by cases h; rfl⟩))
  | read r =>
    refine .inr (.inr (.inr ⟨?_, .inl ⟨r, rfl⟩⟩))
    cases r with
    | pat i =>
      simp only [act] at h
      split at h <;> cases h
      rfl
    | status => cases h; rfl
    | carrier => cases h; rfl
    | len => cases h; rfl
  | transmit =>
    simp only [act] at h
    split at h
    · rename_i hs; cases h; exact .inr (.inr (.inr ⟨rfl, .inr ⟨rfl, hs⟩⟩))
    · cases h

/-- Everything a step can do when it goes on: the configuration is well formed, and either the host has no move left and
nothing changes, or it makes its first move. -/
theorem step_next {s t : State} (h : step s = .next t) :
    s.config.wf = true ∧ ((s.script = [] ∧ t = s) ∨
      ∃ a rest, s.script = a :: rest ∧ act a { s with script := rest } = .next t) := by
  unfold step turn at h
  split at h
  · rename_i hc
    refine ⟨hc, ?_⟩
    split at h
    · rename_i hs; cases h; exact .inl ⟨hs, rfl⟩
    · rename_i a rest hs; exact .inr ⟨a, rest, hs, h⟩
  · cases h

/-- A step whose host has a first move. -/
theorem step_cons {s : State} {a : HostAction} {rest : List HostAction} (hc : s.config.wf = true)
    (hs : s.script = a :: rest) : step s = act a { s with script := rest } := by
  unfold step turn
  rw [if_pos hc, hs]

/-- No step changes the configuration (R33). -/
theorem step_config {s t : State} (h : step s = .next t) : t.config = s.config := by
  rcases (step_next h).2 with ⟨_, rfl⟩ | ⟨a, rest, _, ha⟩
  · rfl
  rcases act_next ha with ⟨p, v, _, rfl⟩ | ⟨_, hi⟩ | ⟨_, rfl⟩ | ⟨rfl, _⟩
  · simp
  · obtain ⟨st, f, p, hcomp⟩ := issue_next hi
    simp [hcomp.writes]
  · rfl
  · rfl

end Sys2Proof.Machine
end

