-- ==== Sys2Proof/Laws/Run.lean ====
section
/-! SUPPORT. Runs of several steps of the core: one more step, the configuration along a run, and the steps by which the
host writes a port register. -/

namespace Sys2Proof.Machine

@[simp] theorem run_zero (s : State) : Host.Core.run Sys2Proof.core 0 s = .next s := rfl

/-- One step, then the rest of the run, of any machine. -/
theorem run_succ_of {M : Host.Core} {n : Nat} {s t : M.State} (h : M.step s = .next t) :
    M.run (n + 1) s = M.run n t := by
  simp only [Host.Core.run, h]

/-- A run that goes on began with a step that went on, of any machine. -/
theorem run_succ_next_of {M : Host.Core} {n : Nat} {s u : M.State} (h : M.run (n + 1) s = .next u) :
    ∃ t, M.step s = .next t ∧ M.run n t = .next u := by
  simp only [Host.Core.run] at h
  split at h
  · rename_i t ht; exact ⟨t, ht, h⟩
  · cases h
  · cases h

/-- One step, then the rest of the run. -/
theorem run_succ {n : Nat} {s t : State} (h : step s = .next t) :
    Host.Core.run Sys2Proof.core (n + 1) s = Host.Core.run Sys2Proof.core n t :=
  run_succ_of (M := Sys2Proof.core) h

/-- A run that goes on began with a step that went on. -/
theorem run_succ_next {n : Nat} {s u : State} (h : Host.Core.run Sys2Proof.core (n + 1) s = .next u) :
    ∃ t, step s = .next t ∧ Host.Core.run Sys2Proof.core n t = .next u :=
  run_succ_next_of (M := Sys2Proof.core) h

/-- No run changes the configuration (R33). -/
theorem run_config {n : Nat} {s u : State} (h : Host.Core.run Sys2Proof.core n s = .next u) : u.config = s.config := by
  induction n generalizing s with
  | zero => cases h; rfl
  | succ n ih =>
    obtain ⟨t, ht, hu⟩ := run_succ_next h
    rw [ih hu, step_config ht]

/-- The step by which the host writes a port register. -/
theorem step_write {s : State} {p : Port} {v : Word} {rest : List HostAction} (hc : s.config.wf = true)
    (hs : s.script = .write p v :: rest) : step s = .next (({ s with script := rest } : State).writePort p v) := by
  rw [step_cons hc hs]; rfl

end Sys2Proof.Machine
end

