-- ==== Sys2Proof/Tests/Slice0.lean ====
section
/-! SUPPORT. The model's own tests. Expected results are the vectors of spec/95_test_vectors.md (named V-... and L-...
as there) or are read off the rule the comment names. The last part shows, for each statement that has hypotheses, a
state and operands that meet all of them. -/

namespace Sys2Proof.Tests

open Sys2Proof.Machine

/-! ## Helpers -/

/-- The machine after reset with the host's next moves. -/
def resetScript (moves : List HostAction) : State := { State.reset with script := moves }

/-- The machine after reset, a request placed to be issued by the next step. -/
def placed (r : Request) : State := State.reset.loadRequest r

/-- A next state that passes a check. -/
def nextIs (p : State → Bool) : Result → Bool
  | .next t => p t
  | .fault _ => false
  | .refused _ => false

/-- Status, carrier and length. -/
def header (t : State) : List Nat := [t.resStatus.toNat, t.resCarrier.toNat, t.resLen.toNat]

/-- The elements of PAT at some indices. -/
def pats (t : State) (is : List Nat) : List Nat := is.map (fun i => (t.pat.getD i 0).toNat)

/-- PAT[0..RES_LEN-1]. -/
def pattern (t : State) : List Nat := (t.pat.take t.resLen.toNat).map BitVec.toNat

/-- A request word under CFG-T completes with this status and writes neither carrier, length nor pattern. -/
def failsWith (status : Nat) (r : Request) : Bool :=
  nextIs (fun t => header t == [status, 0, 0] && t.pat.all (· == 0)) (step (placed r))

def faultIs (f : Fault) : Result → Bool
  | .fault g => decide (g = f)
  | .next _ => false
  | .refused _ => false

def refusalIs (f : Refusal) : Result → Bool
  | .refused g => decide (g = f)
  | .next _ => false
  | .fault _ => false

/-- A configuration with one entry. -/
def oneEntry (k : KeyCode) (e : Entry) : Config := ⟨[(k, e)], 64, 130⟩

/-! ## Well-formedness: an ill-formed term for each check (R32, R78) -/

theorem test_wf_key_app_at_nApp : (Key.app 1).wf 1 = false := by decide
theorem test_wf_key_app_below_nApp : (Key.app 63).wf 64 = true := by decide
theorem test_wf_resolve_of_absent_key : (Instr.resolve (.app 0)).wf 0 = false := by decide
theorem test_wf_reference : Config.reference.wf = true := by decide
theorem test_wf_nApp_65 : (Config.mk [] 65 130).wf = false := by decide
theorem test_wf_maxPatternLen_129 : (Config.mk [] 0 129).wf = false := by decide
theorem test_wf_entry_at_reserved_code : (oneEntry 0x0A (.nec 1 2 38000)).wf = false := by decide
theorem test_wf_entry_at_absent_app : (Config.mk [(0x40, .nec 1 2 38000)] 0 130).wf = false := by decide
theorem test_wf_nec_carrier_0 : (oneEntry 0x10 (.nec 1 2 0)).wf = false := by decide
theorem test_wf_sirc_carrier_0 : (oneEntry 0x10 (.sirc 1 2 3 600 0)).wf = false := by decide
theorem test_wf_sirc_unit_0 : (oneEntry 0x10 (.sirc 1 2 3 0 40000)).wf = false := by decide
theorem test_wf_sirc_unit_max : (oneEntry 0x10 (.sirc 1 2 3 0x3FFFFFFF 40000)).wf = true := by decide
theorem test_wf_sirc_unit_over : (oneEntry 0x10 (.sirc 1 2 3 0x40000000 40000)).wf = false := by decide
theorem test_wf_captured_empty : (oneEntry 0x10 (.captured 0 [] 36000)).wf = false := by decide
theorem test_wf_captured_clen_differs : (oneEntry 0x10 (.captured 2 [5] 36000)).wf = false := by decide
theorem test_wf_captured_zero_duration : (oneEntry 0x10 (.captured 2 [5, 0] 36000)).wf = false := by decide
theorem test_wf_captured_too_long :
    (oneEntry 0x10 (.captured 131 (List.replicate 131 7) 36000)).wf = false := by decide
theorem test_wf_captured_carrier_0 : (oneEntry 0x10 (.captured 1 [5] 0)).wf = false := by decide
theorem test_wf_table_not_rising :
    (Config.mk [(0x11, .nec 1 2 3), (0x10, .nec 1 2 3)] 0 130).wf = false := by decide
theorem test_wf_table_lists_empty : (oneEntry 0x10 .empty).wf = false := by decide
theorem test_configure_ill_formed :
    refusalIs .illFormedConfiguration (configure ⟨[], 65, 130⟩) = true := by decide

/-! ## Decoding: words written out from R71, R74, R78 and R84 -/

-- RESOLVE POWER: RSV1 = 0, KEY = 0001 0000, RSV0 = 0000, OP = 0001 (V-RES-10: no operand is kept).
theorem test_decode_resolve :
    decode 1 ⟨0b00000000000000000001000000000001, 0xFFFFFFFF, 1, 2, 3⟩ = .ok (.resolve (.button .power)) := by decide
-- ENC.NEC (V-NEC-8: OPC and OPD are not kept).
theorem test_decode_encNec :
    decode 1 ⟨0b00000000000000000000000000000010, 4, 8, 0xDEADBEEF, 0x12345678⟩ = .ok (.encNec 4 8) := by decide
theorem test_decode_encSirc20 :
    decode 1 ⟨0b00000000000000000000000000000011, 21, 1, 5, 600⟩ = .ok (.encSirc20 21 1 5 600) := by decide
theorem test_decode_encSirc :
    decode 1 ⟨0b00000000000000000000000000000100, 21, 1, 12, 7⟩ = .ok (.encSirc 21 1 12 7) := by decide
theorem test_decode_digit_9 : decode 1 ⟨0x00000901, 0, 0, 0, 0⟩ = .ok (.resolve (.digit 9)) := by decide
theorem test_decode_input : decode 0 ⟨0x00001D01, 0, 0, 0, 0⟩ = .ok (.resolve (.button .input)) := by decide
theorem test_decode_app_63 : decode 64 ⟨0x00007F01, 0, 0, 0, 0⟩ = .ok (.resolve (.app 63)) := by decide
-- The reserved encodings of R81, V-ENC-1 to V-ENC-7, V-RES-6 to V-RES-8.
theorem test_decode_reserved_op :
    [0x0, 0x5, 0xF].map (fun w => decode 1 ⟨w, 4, 8, 0, 0⟩) = List.replicate 3 (.error .opcode) := by decide
theorem test_decode_reserved_rsv0 : decode 1 ⟨0x00000012, 4, 8, 0, 0⟩ = .error .rsv0 := by decide
theorem test_decode_reserved_key_field : decode 1 ⟨0x00000102, 4, 8, 0, 0⟩ = .error .keyField := by decide
theorem test_decode_reserved_rsv1 :
    [0x00010001, 0x80001001].map (fun w => decode 1 ⟨w, 0, 0, 0, 0⟩) = List.replicate 2 (.error .rsv1) := by decide
theorem test_decode_reserved_key_code :
    [0x00004101, 0x00001E01, 0x00000A01].map (fun w => decode 1 ⟨w, 0, 0, 0, 0⟩) =
      List.replicate 3 (.error .keyCode) := by decide
-- spec/opcode_table.json's rows, with their operand words of zeros and with operand words.
theorem test_decodeTableWord_rows :
    [1, 2, 3, 4].map (decodeTableWord 32) =
      [some (.resolve (.digit 0)), some (.encNec 0 0), some (.encSirc20 0 0 0 0), some (.encSirc 0 0 0 0)] := by
  decide
theorem test_decodeTableWord_operands :
    decodeTableWord 160 (4 + 21 * 2 ^ 32 + 1 * 2 ^ 64 + 12 * 2 ^ 96 + 7 * 2 ^ 128) = some (.encSirc 21 1 12 7) := by
  decide
-- R84: each row's match and mask take exactly its own word among the four.
theorem test_opcode_rows_match :
    [0x00001001, 2, 3, 4].map (fun w => opcodeRows.map (fun row => row.matches w)) =
      [[true, false, false, false], [false, true, false, false], [false, false, true, false],
        [false, false, false, true]] := by decide

/-! ## ENC.NEC -/

-- V-NEC-1.
theorem test_nec_4_8 :
    nextIs (fun t => header t == [1, 0, 67] && pats t [0, 1, 2, 3, 7, 19, 21, 23, 65, 66, 67] ==
      [9000, 4500, 560, 560, 1690, 1690, 1690, 560, 1690, 560, 0]) (exec (.encNec 0x04 0x08) State.reset) = true := by
  decide
-- V-NEC-6: masked as V-NEC-3.
theorem test_nec_masks :
    nextIs (fun t => pats t [3, 17, 19, 33, 35, 49, 51, 65] == [1690, 1690, 560, 560, 1690, 1690, 560, 560])
      (step (placed ⟨2, 0xFFFFFFFF, 0x1FF, 0, 0⟩)) = true := by decide

/-! ## ENC.SIRC20 -/

-- V-S20-1.
theorem test_sirc20_600 :
    nextIs (fun t => header t == [1, 0, 42] && pattern t == [2400, 600, 1200, 600, 600, 600, 1200, 600, 600, 600, 1200,
      600, 600, 600, 600, 600, 1200, 600] ++ List.replicate 24 600) (exec (.encSirc20 21 1 0 600) State.reset) = true := by
  decide
-- V-S20-6 at the largest unit time; V-S20-5, V-S20-7 and V-S20-10 outside the range.
theorem test_sirc20_unit_limits :
    nextIs (fun t => header t == [1, 0, 42] && pats t [0, 1, 41, 42] == [4294967292, 1073741823, 1073741823, 0])
        (exec (.encSirc20 0 0 0 0x3FFFFFFF) State.reset) = true ∧
      [0, 0x40000000, 0x80000000].all (fun u => failsWith 2 ⟨3, 0, 0, 0, u⟩) = true := by decide

/-! ## ENC.SIRC -/

-- V-SG-2.
theorem test_sirc_15 :
    nextIs (fun t => header t == [1, 0, 32] && pattern t == [2400, 600, 1200, 600, 600, 600, 1200, 600, 600, 600, 1200,
      600, 600, 600, 600, 600, 600, 600, 1200, 600, 600, 600, 1200, 600, 1200, 600, 600, 600, 600, 600, 600, 600])
      (exec (.encSirc 21 0x1A 15 7) State.reset) = true := by decide
-- V-SG-9, V-SG-6; V-SG-4, V-SG-7, V-SG-8, V-SG-10, V-SG-13.
theorem test_sirc_limits :
    nextIs (fun t => header t == [1, 0, 130] && pats t [64, 66, 129] == [1200, 600, 600])
        (exec (.encSirc 0 0xFFFFFFFF 64 0) State.reset) = true ∧
      nextIs (fun t => pattern t == [2400, 600]) (exec (.encSirc 5 5 0 0) State.reset) = true ∧
      [(3, 7), (5, 0xFFFFFFFF), (65, 7), (0xFFFFFFFF, 7), (0x7FFFFFFF, 0)].all
        (fun n => failsWith 2 ⟨4, 1, 1, n.1, n.2⟩) = true := by decide +kernel

/-! ## RESOLVE -/

-- V-RES-1, V-RES-2, V-RES-3, V-RES-4 by their REQ words.
theorem test_resolve_entries :
    nextIs (fun t => header t == [1, 38000, 67]) (step (State.reset.withFetchWord 32 0x1001)) = true ∧
      nextIs (fun t => header t == [1, 40000, 42] && pats t [2, 4, 10, 16] == [600, 1200, 1200, 1200])
        (step (State.reset.withFetchWord 32 0x1601)) = true ∧
      nextIs (fun t => header t == [1, 36000, 5] && pats t [0, 1, 2, 3, 4, 5] == [3500, 1750, 450, 1300, 450, 0])
        (step (State.reset.withFetchWord 32 0x1B01)) = true ∧
      nextIs (fun t => header t == [1, 38000, 2] && pattern t == [1000, 500])
        (step (State.reset.withFetchWord 32 0x4001)) = true := by decide
-- V-RES-5, V-RES-6, V-RES-7, V-RES-8; V-ENC-10.
theorem test_resolve_failures :
    failsWith 3 ⟨0x501, 0, 0, 0, 0⟩ = true ∧
      [0x4101, 0x1E01, 0x0A01, 0x13].all (fun w => failsWith 4 ⟨w, 0, 0, 0, 0⟩) = true := by decide

/-! ## The port, the host and reset -/

-- V-RST-3.
theorem test_unwritten_operand_faults :
    faultIs (.portUnwritten .opa) (issue (State.reset.writePort .req 2)) = true ∧
      nextIs (fun t => header t == [1, 38000, 67]) (issue (State.reset.writePort .req 0x1001)) = true := by
  decide
theorem test_unwritten_req_faults : faultIs (.portUnwritten .req) (issue State.reset) = true := by decide
-- V-RST-1, V-RST-2.
theorem test_reset_discards_result :
    nextIs (fun t => header t == [0, 0, 0] && t.pat == List.replicate 130 0 && t.config == Config.reference)
      (act .reset (State.reset.writeResults .ok 38000 [9000, 4500])) = true := by decide
-- R218: a resolved result may be handed over, a direct encoder's may not.
theorem test_transmit :
    nextIs (fun _ => true) (act .transmit (State.reset.writeResults .ok 38000 [9000])) = true ∧
      refusalIs .transmitForbidden (act .transmit (State.reset.writeResults .ok 0 [9000])) = true ∧
      refusalIs .transmitForbidden (act .transmit State.reset) = true := by decide
theorem test_read_past_buffer : faultIs (.noSuchElement 130) (act (.read (.pat 130)) State.reset) = true := by decide
-- R106: Finish(OK, f, P) with an empty pattern, and with a duration of 0.
theorem test_finish_invalid_pattern :
    faultIs .invalidPattern (finish .ok 1 [] State.reset) = true ∧
      faultIs .invalidPattern (finish .ok 1 [5, 0] State.reset) = true := by decide

/-! ## The table -/

-- R178: adding, replacing and removing an entry, and the lookup of a slot that is not listed.
theorem test_table_set :
    Table.set Config.reference.table 0x11 (.nec 1 2 3) ≠ Config.reference.table ∧
      (Table.set Config.reference.table 0x11 (.nec 1 2 3)).lookup 0x11 = .nec 1 2 3 ∧
      (Table.set Config.reference.table 0x11 (.nec 1 2 3)).canonical = true ∧
      Table.set (Table.set Config.reference.table 0x11 (.nec 1 2 3)) 0x11 .empty = Config.reference.table ∧
      Config.reference.table.lookup 0x05 = .empty := by decide

/-! ## The assembler: the lines and words of 95_test_vectors.md C -/

theorem test_assemble_resolve :
    assembleText 1 " RESOLVE POWER        ; host program P1".toList = some ⟨0x00001001, 0, 0, 0, 0⟩ ∧
      assembleText 1 "RESOLVE 5".toList = some ⟨0x00000501, 0, 0, 0, 0⟩ ∧
      assembleText 1 " RESOLVE    #0x41 ".toList = some ⟨0x00004101, 0, 0, 0, 0⟩ ∧
      assembleText 1 "RESOLVE DIGIT_9".toList = some ⟨0x00000901, 0, 0, 0, 0⟩ ∧
      assembleText 1 "RESOLVE APP_0".toList = some ⟨0x00004001, 0, 0, 0, 0⟩ ∧
      assembleText 1 "RESOLVE #256".toList = none := by decide
-- R78, R82: a key's name exists only below N_APP; its code can still be written raw.
theorem test_assemble_absent_app :
    assembleText 1 "RESOLVE APP_5".toList = none ∧
      assembleText 6 "RESOLVE APP_5".toList = some ⟨0x00004501, 0, 0, 0, 0⟩ ∧
      assembleText 1 "RESOLVE #0x45".toList = some ⟨0x00004501, 0, 0, 0, 0⟩ := by decide
-- Program P1, its comment-only lines among it, and a program with a line that is an error.
theorem test_assemble_program :
    assembleProgram 1 ["; host program P1".toList, " RESOLVE POWER        ; 0x00001001".toList,
        " ; host reads: status 1".toList, " RESOLVE 5".toList, "".toList] =
        some [⟨0x00001001, 0, 0, 0, 0⟩, ⟨0x00000501, 0, 0, 0, 0⟩] ∧
      assembleProgram 1 ["RESOLVE POWER".toList, "RESOLVE".toList] = none := by decide
theorem test_assemble_encoders :
    assembleText 1 " ENC.NEC    0x104, 0x108".toList = some ⟨2, 0x104, 0x108, 0, 0⟩ ∧
      assembleText 1 "ENC.NEC -1, 0b1000".toList = some ⟨2, 0xFFFFFFFF, 8, 0, 0⟩ ∧
      assembleText 1 " ENC.SIRC20 0x95, 0x21, 0x100, 600 ".toList = some ⟨3, 0x95, 0x21, 0x100, 0x258⟩ ∧
      assembleText 1 "ENC.SIRC 1, 1, 5, -1".toList = some ⟨4, 1, 1, 5, 0xFFFFFFFF⟩ ∧
      assembleText 1 ".req 0x00000013, 0, 0, 0, 0".toList = some ⟨0x13, 0, 0, 0, 0⟩ ∧
      assembleText 1 "ENC.NEC 4294967296, 0".toList = none := by decide
-- V-NEC-7, V-S20-9, V-SG-12 and R83's SIRC-15.
theorem test_assemble_pseudo :
    assembleText 1 "ENC.NEC 0x08".toList = some ⟨2, 4, 8, 0, 0⟩ ∧
      assembleText 1 "ENC.SIRC20 21, 1, 0".toList = some ⟨3, 21, 1, 0, 600⟩ ∧
      assembleText 1 "ENC.SIRC 21, 1, 12".toList = some ⟨4, 21, 1, 12, 7⟩ ∧
      assembleText 1 "ENC.SIRC12 21, 1".toList = some ⟨4, 21, 1, 12, 7⟩ ∧
      assembleText 1 "ENC.SIRC15 21, 0x1A".toList = some ⟨4, 21, 0x1A, 15, 7⟩ := by decide

/-! ## Witnesses: for each statement with hypotheses, a state and operands that meet all of them -/

open Sys2Proof.Says

theorem nextIs_exists {p : State → Bool} {o : Result} (h : nextIs p o = true) : ∃ t, o = .next t ∧ p t = true := by
  cases o with
  | next t => exact ⟨t, rfl, h⟩
  | fault r => cases h
  | refused r => cases h

theorem next_exists {o : Result} (h : nextIs (fun _ => true) o = true) : ∃ t, o = .next t :=
  (nextIs_exists h).imp fun _ ht => ht.1

theorem reset_wf : State.reset.config.wf = true := test_wf_reference

theorem placed_next_move (r : Request) : NextMove (placed r) .issue [] := ⟨test_wf_reference, rfl⟩

/-- The machine after reset with one move of the host. -/
theorem resetScript_next_move (a : HostAction) : NextMove (resetScript [a]) a [] := ⟨test_wf_reference, rfl⟩

/-- The machine after reset with another table. -/
def withTable (t : Table) : State := State.resetWith ⟨t, 1, 130⟩

theorem witness_DecodeOfEncode :
    (Instr.resolve (.app 63)).wf 64 = true ∧ (Instr.encNec 0xFFFFFFFF 0).wf 0 = true ∧
      (Instr.encSirc20 1 2 3 4).wf 0 = true ∧ (Instr.encSirc 1 2 3 4).wf 0 = true := by decide

theorem witness_DecoderAcceptsExactlyLegalWords :
    64 ≤ 64 ∧ LegalReq 64 0x7F01 ∧ ¬ LegalReq 64 0x8001 ∧ LegalReq 0 0x1D01 ∧ ¬ LegalReq 0 0x1E01 := by
  simp [LegalReq, KeyCodeAssigned]

theorem witness_KeyCodesAsAssigned :
    64 ≤ 64 ∧ KeyCodeAssigned 64 0x7F ∧ ¬ KeyCodeAssigned 64 0x80 ∧ ¬ KeyCodeAssigned 64 0x0A ∧
      (Key.app 63).wf 64 = true ∧ (Key.digit 9).code = (Key.digit 9).code := by
  simp [KeyCodeAssigned, Key.wf]

/-- One request for each instruction. -/
theorem witness_StepRunsDecodedRequest :
    ∀ x ∈ [((⟨0x1001, 0, 0, 0, 0⟩, .resolve (.button .power)) : Request × Instr), (⟨2, 4, 8, 0, 0⟩, .encNec 4 8),
        (⟨3, 21, 1, 0, 600⟩, .encSirc20 21 1 0 600), (⟨4, 21, 1, 12, 7⟩, .encSirc 21 1 12 7)],
      NextMove (placed x.1) .issue [] ∧ (placed x.1).req.written = true ∧
        decode (placed x.1).config.nApp (placed x.1).request = .ok x.2 ∧
        ∀ p ∈ operandPorts x.2, ((placed x.1).port p).written = true := by
  intro x hx
  refine ⟨placed_next_move _, ?_⟩
  revert x
  decide

/-- A reserved REQ word in a machine whose operand registers are not written: V-ENC-2, V-ENC-4, V-ENC-5, V-ENC-6 and
V-RES-6. -/
theorem witness_ReservedEncodingCompletes :
    ∀ w ∈ [(0x5 : Word), 0x12, 0x102, 0x10001, 0x4101],
      (State.reset.writePort .req w).config.nApp ≤ 64 ∧ (State.reset.writePort .req w).req.written = true ∧
        ¬ LegalReq (State.reset.writePort .req w).config.nApp (State.reset.writePort .req w).req.value.toNat := by
  intro w hw
  refine ⟨(by decide : 1 ≤ 64), rfl, ?_⟩
  show ¬ LegalReq 1 w.toNat
  simp only [List.mem_cons, List.not_mem_nil, or_false] at hw
  rcases hw with rfl | rfl | rfl | rfl | rfl <;> simp [LegalReq, KeyCodeAssigned]

theorem witness_ResolveReadsNoOperand :
    (State.reset.writePort .req 0x4001).req.written = true ∧
      (Key.app 0).wf (State.reset.writePort .req 0x4001).config.nApp = true ∧
      (State.reset.writePort .req 0x4001).req.value.toNat = 1 + 256 * (Key.app 0).code.toNat := by decide

/-- REQ = 2 with OPA alone written, and each clause of a request that reads four operands with one of them unwritten. -/
theorem witness_UnwrittenPortFaults :
    NextMove (resetScript [.issue]) .issue [] ∧ (resetScript [.issue]).req.written = false ∧
      (let s := ((resetScript [.issue]).writePort .req 2).writePort .opa 4
       NextMove s .issue [] ∧ s.req.written = true ∧ s.req.value.toNat = 2 ∧
         (s.opa.written && s.opb.written) = false) ∧
      (let s := (((resetScript [.issue]).writePort .req 3).writePort .opa 1).writePort .opb 1 |>.writePort .opc 1
       NextMove s .issue [] ∧ s.req.written = true ∧ s.req.value.toNat = 3 ∧
         (s.opa.written && s.opb.written && s.opc.written && s.opd.written) = false) ∧
      (let s := (((resetScript [.issue]).writePort .req 4).writePort .opb 1).writePort .opc 1 |>.writePort .opd 1
       NextMove s .issue [] ∧ s.req.written = true ∧ s.req.value.toNat = 4 ∧
         (s.opa.written && s.opb.written && s.opc.written && s.opd.written) = false) :=
  ⟨resetScript_next_move _, rfl, ⟨⟨test_wf_reference, rfl⟩, by decide⟩, ⟨⟨test_wf_reference, rfl⟩, by decide +kernel⟩,
    ⟨⟨test_wf_reference, rfl⟩, by decide⟩⟩

theorem witness_EveryWrittenRequestCompletes (r : Request) :
    NextMove (placed r) .issue [] ∧ (placed r).req.written = true ∧ (placed r).opa.written = true ∧
      (placed r).opb.written = true ∧ (placed r).opc.written = true ∧ (placed r).opd.written = true :=
  ⟨placed_next_move r, rfl, rfl, rfl, rfl, rfl⟩

theorem witness_EveryInstructionCompletes : State.reset.config.wf = true := reset_wf

/-- EncNecResult, NecDecodesBack and NecDurationFixed. -/
theorem witness_EncNec : 130 ≤ State.reset.config.maxPatternLen := by decide

/-- EncSirc20Result and Sirc20FieldsRecovered, at both ends of the range of the unit time. -/
theorem witness_EncSirc20Result :
    130 ≤ State.reset.config.maxPatternLen ∧ ∀ t ∈ [(1 : Word), 0x3FFFFFFF], 1 ≤ t.toNat ∧ t.toNat ≤ 0x3FFFFFFF :=
  ⟨witness_EncNec, by simp⟩

/-- The three fields of Sirc20FieldsRecovered. -/
theorem witness_Sirc20FieldsRecovered (opa opb opc : Word) :
    ∀ x ∈ [(0, 7, opa.toNat % 2 ^ 7), (7, 5, opb.toNat % 2 ^ 5), (12, 8, opc.toNat % 2 ^ 8)],
      (x.1 = 0 ∧ x.2.1 = 7 ∧ x.2.2 = opa.toNat % 2 ^ 7) ∨ (x.1 = 7 ∧ x.2.1 = 5 ∧ x.2.2 = opb.toNat % 2 ^ 5) ∨
        (x.1 = 12 ∧ x.2.1 = 8 ∧ x.2.2 = opc.toNat % 2 ^ 8) := by
  simp

theorem witness_EncSirc20BadUnitTime :
    ∀ t ∈ [(0 : Word), 0x40000000, 0xFFFFFFFF], t.toNat = 0 ∨ 0x3FFFFFFF < t.toNat := by simp

/-- The corners of the legal counts (total, ncmd). -/
theorem witness_EncSircResult :
    130 ≤ State.reset.config.maxPatternLen ∧ ∀ x ∈ [((0, 0) : Word × Word), (64, 0), (64, 64), (12, 7)],
      0 ≤ x.2.toInt ∧ x.2.toInt ≤ x.1.toInt ∧ x.1.toInt ≤ 64 :=
  ⟨witness_EncNec, by simp⟩

/-- Each clause by itself at its boundary. -/
theorem witness_EncSircBadCounts :
    ((6 : Word).toInt - (7 : Word).toInt < 0 ∧ ¬ (7 : Word).toInt < 0 ∧ ¬ 64 < (6 : Word).toInt) ∧
      (¬ (0 : Word).toInt - (0xFFFFFFFF : Word).toInt < 0 ∧ (0xFFFFFFFF : Word).toInt < 0) ∧
      (¬ (65 : Word).toInt - (0 : Word).toInt < 0 ∧ 64 < (65 : Word).toInt) := by decide

theorem witness_ResolveEmptySlot : State.reset.config.table.lookup (Key.digit 5).code = .empty := by decide

theorem witness_ResolveNecEntry :
    130 ≤ State.reset.config.maxPatternLen ∧
      State.reset.config.table.lookup (Key.button .power).code = .nec 0x04 0x08 38000 := by decide

theorem witness_ResolveSircEntry :
    130 ≤ State.reset.config.maxPatternLen ∧
      State.reset.config.table.lookup (Key.button .volUp).code = .sirc 0x12 0x01 0x00 600 40000 ∧
      1 ≤ (600 : Word).toNat ∧ (600 : Word).toNat ≤ 0x3FFFFFFF ∧
      (withTable [(0x10, .sirc 1 2 3 0x3FFFFFFF 1)]).config.table.lookup (Key.button .power).code =
        .sirc 1 2 3 0x3FFFFFFF 1 ∧ 1 ≤ (0x3FFFFFFF : Word).toNat ∧ (0x3FFFFFFF : Word).toNat ≤ 0x3FFFFFFF := by decide

/-- No well-formed configuration has such an entry (R170): the states are of an ill-formed one. -/
theorem witness_ResolveSircEntryBadUnit :
    ∀ u ∈ [(0 : Word), 0x40000000],
      (withTable [(0x10, .sirc 1 2 3 u 40000)]).config.table.lookup (Key.button .power).code = .sirc 1 2 3 u 40000 ∧
        (u.toNat = 0 ∨ 0x3FFFFFFF < u.toNat) := by
  intro u hu
  refine ⟨rfl, ?_⟩
  revert u
  simp

/-- A captured pattern of odd length, and the shortest one. -/
theorem witness_ResolveCapturedEntry :
    State.reset.config.wf = true ∧ State.reset.config.table.lookup (Key.button .back).code =
        .captured 5 [3500, 1750, 450, 1300, 450] 36000 ∧
      (withTable [(0x10, .captured 1 [7] 1)]).config.wf = true ∧
      (withTable [(0x10, .captured 1 [7] 1)]).config.table.lookup (Key.button .power).code = .captured 1 [7] 1 := by
  decide

/-- The premise of NoPatternDefinedExactly, with its two sides true and with its two sides false. -/
theorem witness_NoPatternDefinedExactly :
    (∃ t, exec (.resolve (.digit 5)) State.reset = .next t ∧ (t.resStatus.toNat == 3) = true) ∧
      ∃ t, exec (.encNec 1 2) State.reset = .next t ∧ (t.resStatus.toNat != 3) = true :=
  ⟨nextIs_exists (by decide), nextIs_exists (by decide +kernel)⟩

/-- The premise of InvalidParametersExactly, for each of its three cases and for none. -/
theorem witness_InvalidParametersExactly :
    (∃ t, exec (.encSirc 21 1 3 7) State.reset = .next t ∧ (t.resStatus.toNat == 2) = true) ∧
      (∃ t, exec (.encSirc20 1 0 0 0) State.reset = .next t ∧ (t.resStatus.toNat == 2) = true) ∧
      (∃ t, exec (.resolve (.button .power)) (withTable [(0x10, .sirc 1 2 3 0 40000)]) = .next t ∧
        (t.resStatus.toNat == 2) = true) ∧
      ∃ t, exec (.encNec 1 2) State.reset = .next t ∧ (t.resStatus.toNat != 2) = true :=
  ⟨nextIs_exists (by decide), nextIs_exists (by decide +kernel), nextIs_exists (by decide +kernel),
    nextIs_exists (by decide)⟩

/-- A request that fails, by each of the three errors. -/
theorem witness_ErrorAffectsNothingElse :
    ∀ r ∈ [(⟨5, 0, 0, 0, 0⟩ : Request), ⟨0x501, 0, 0, 0, 0⟩, ⟨3, 0, 0, 0, 0⟩],
      ∃ t, issue (placed r) = .next t ∧ (t.resStatus.toNat != 1) = true := by
  have h : ∀ r ∈ [(⟨5, 0, 0, 0, 0⟩ : Request), ⟨0x501, 0, 0, 0, 0⟩, ⟨3, 0, 0, 0, 0⟩],
      nextIs (fun t => t.resStatus.toNat != 1) (issue (placed r)) = true := by decide
  exact fun r hr => nextIs_exists (h r hr)

/-- RequestWritesALegalStatus, RequestChangesOnlyResults and SameRequestTwice. -/
theorem witness_issue_next : ∃ t, issue (placed ⟨0x1001, 0, 0, 0, 0⟩) = .next t := next_exists (by decide)

/-- A pattern that is not valid, and one that is. -/
theorem witness_FinishFaultsExactlyOnInvalid :
    ([] : Pattern).length < 2 ^ 32 ∧ ([5, 0] : Pattern).length < 2 ^ 32 ∧
      nextIs (fun _ => true) (finish .ok 1 [5] State.reset) = true := by decide

/-- Two states that agree on what RESOLVE POWER reads and on nothing else: the other four words and the results differ. -/
theorem witness_RequestDependsOnlyOnWhatItReads :
    let s := placed ⟨0x1001, 0, 0, 0, 0⟩
    let u := (placed ⟨0x1001, 1, 2, 3, 4⟩).writeResults .ok 7 [9]
    s.config = u.config ∧ s.req = u.req ∧ s.opa ≠ u.opa ∧ s.resCarrier ≠ u.resCarrier ∧
      (s.req.value.toNat = 2 ∨ s.req.value.toNat = 3 ∨ s.req.value.toNat = 4 → s.opa = u.opa ∧ s.opb = u.opb) ∧
      (s.req.value.toNat = 3 ∨ s.req.value.toNat = 4 → s.opc = u.opc ∧ s.opd = u.opd) ∧ ∃ t, issue s = .next t :=
  ⟨rfl, rfl, by decide, by decide +kernel, by decide +kernel, by decide +kernel, next_exists (by decide +kernel)⟩

/-- A host move of each kind that is neither a request nor a reset; and two states that differ in their results. -/
theorem witness_ResultsWrittenOnlyByRequestAndReset :
    (∀ a ∈ [HostAction.write .opa 5, .read .status, .read (.pat 129)],
        (∃ t, act a State.reset = .next t) ∧ a ≠ .issue ∧ a ≠ .reset) ∧
      (∃ t, act .transmit (State.reset.writeResults .ok 38000 [9000]) = .next t) ∧
      State.reset.config = (State.reset.writeResults .ok 38000 [9000]).config ∧
      ∃ t, exec (.encNec 4 8) State.reset = .next t := by
  refine ⟨fun a ha => ⟨next_exists ?_, ?_⟩, next_exists (by decide), rfl, next_exists (by decide +kernel)⟩ <;>
    revert a <;> decide

/-- RESOLVE BACK, and after it a whole ENC.NEC 0, 0 (V-RES-9). -/
theorem witness_ResolveDeterministicAcrossRuns :
    ∃ s t u : State, exec (.resolve (.button .back)) s = .next t ∧ Host.Core.run Sys2Proof.core 6 t = .next u ∧
      (t.resLen ≠ u.resLen) := by
  obtain ⟨t, ht, h⟩ := nextIs_exists (o := exec (.resolve (.button .back)) (resetScript (requestMoves ⟨2, 0, 0, 0, 0⟩)))
    (p := fun t => nextIs (fun u => t.resLen != u.resLen) (Host.Core.run Sys2Proof.core 6 t)) (by decide)
  obtain ⟨u, hu, hne⟩ := nextIs_exists h
  exact ⟨_, t, u, ht, hu, by simpa using hne⟩

/-- The machine that holds a resolved result of one element, with the host about to hand it over. -/
def holding : State := (resetScript [.transmit]).writeResults .ok 38000 [9000]

theorem holding_good : holding.Good := by
  refine ⟨test_wf_reference, by decide, by decide +kernel, fun _ => ⟨by decide +kernel, by decide +kernel,
    fun i hi => ?_⟩, fun h => absurd rfl h, fun i hi => ?_⟩
  · obtain rfl : i = 0 := Nat.lt_one_iff.mp hi
    decide
  · have h : ∀ j < 130, 1 ≤ j → holding.pat.getD j 0 = 0 := by decide
    have hl : holding.pat.length = 130 := by decide +kernel
    by_cases hj : i < 130
    · exact h i hj hi
    · exact List.getD_eq_default _ _ (by omega)

theorem witness_StepKeepsGood : ∃ s t : State, s.Good ∧ step s = .next t := by
  obtain ⟨t, ht⟩ := next_exists (o := step holding) (by decide)
  exact ⟨_, t, holding_good, ht⟩

/-- A request, a reset and a wait that go on. -/
theorem witness_StepKeepsConfiguration :
    (∃ t, step (placed ⟨0x1001, 0, 0, 0, 0⟩) = .next t) ∧ (∃ t, step (resetScript [.reset]) = .next t) ∧
      ∃ t, step State.reset = .next t :=
  ⟨next_exists (by decide), next_exists (by decide), next_exists (by decide)⟩

theorem witness_HandedOverPairIsValid :
    holding.Good ∧ holding.handOff = some (38000, [9000]) :=
  ⟨holding_good, by decide⟩

/-- ResetIsGood, ResetValues. -/
theorem witness_ResetIsGood : Config.reference.wf = true ∧ (Config.mk [] 64 130).wf = true ∧
    (Config.mk [] 0 4096).wf = true := by decide

theorem configLegal_empty {nApp maxLen : Nat} (h : nApp ≤ 64) (hm : 130 ≤ maxLen) : ConfigLegal ⟨[], nApp, maxLen⟩ :=
  ⟨h, hm, fun _ _ => rfl, fun _ => trivial⟩

/-- Canonical tables, legal at both ends of N_APP, and illegal by each of R32's clauses. -/
theorem witness_IllFormedConfigurationRefused :
    (∀ c ∈ [Config.mk [] 64 130, Config.mk [] 0 130], c.table.canonical = true ∧ ConfigLegal c) ∧
      ∀ c ∈ [Config.mk [] 65 130, Config.mk [] 0 129, ⟨[(0x0A, .nec 1 2 3)], 64, 130⟩, ⟨[(0x10, .nec 1 2 0)], 64, 130⟩,
          ⟨[(0x10, .captured 2 [5, 0] 1)], 64, 130⟩],
        c.table.canonical = true ∧ ¬ ConfigLegal c := by
  refine ⟨fun c hc => ?_, fun c hc => ?_⟩
  · simp only [List.mem_cons, List.not_mem_nil, or_false] at hc
    rcases hc with rfl | rfl <;> exact ⟨rfl, configLegal_empty (by decide) (by decide +kernel)⟩
  · simp only [List.mem_cons, List.not_mem_nil, or_false] at hc
    rcases hc with rfl | rfl | rfl | rfl | rfl
    · exact ⟨rfl, fun h => absurd h.1 (by decide)⟩
    · exact ⟨rfl, fun h => absurd h.2.1 (by decide)⟩
    · exact ⟨by decide, fun h => absurd (h.2.2.1 0x0A (by simp [KeyCodeAssigned])) (by decide +kernel)⟩
    · exact ⟨by decide, fun h => absurd (h.2.2.2 0x10) (by simp [EntryLegal, Table.lookup])⟩
    · exact ⟨by decide, fun h => absurd (h.2.2.2 0x10) (by simp [EntryLegal, Table.lookup])⟩

theorem witness_ResetMove : NextMove (resetScript [.reset]) .reset [] := resetScript_next_move _

theorem witness_WriteMove :
    NextMove (resetScript [.write .opd 5]) (.write .opd 5) [] ∧ Port.req ≠ Port.opd := ⟨resetScript_next_move _, by decide⟩

/-- The last element of PAT, and the first index that has none. -/
theorem witness_ReadMove :
    NextMove (resetScript [.read (.pat 129)]) (.read (.pat 129)) [] ∧
      ((resetScript [.read (.pat 129)]).readResult (.pat 129)).isSome = true ∧
      NextMove (resetScript [.read (.pat 130)]) (.read (.pat 130)) [] ∧
      (resetScript [.read (.pat 130)]).config.maxPatternLen ≤ 130 :=
  ⟨resetScript_next_move _, by decide, resetScript_next_move _, by decide +kernel⟩

theorem witness_WaitingChangesNothing : State.reset.config.wf = true ∧ State.reset.script = [] := ⟨reset_wf, rfl⟩

/-- A result that may be handed over, a direct encoder's result, and no result. -/
theorem witness_TransmitOnlyAfterSuccess :
    (NextMove holding .transmit [] ∧
        (holding.resStatus.toNat = 1 ∧ holding.resCarrier ≠ 0)) ∧
      (let s := (resetScript [.transmit]).writeResults .ok 0 [9000]
       NextMove s .transmit [] ∧ ¬ (s.resStatus.toNat = 1 ∧ s.resCarrier ≠ 0)) ∧
      NextMove (resetScript [.transmit]) .transmit [] ∧ ¬ (resetScript [.transmit]).resStatus.toNat = 1 :=
  ⟨⟨⟨test_wf_reference, rfl⟩, by decide⟩, ⟨⟨test_wf_reference, rfl⟩, by decide +kernel⟩, resetScript_next_move _, by decide +kernel⟩

/-- With its two sides true, and with its two sides false. -/
theorem witness_OnlyResolveCanBeHandedOver :
    State.reset.config.wf = true ∧
      (∃ t, exec (.resolve (.button .power)) State.reset = .next t ∧ t.handOff.isSome = true) ∧
      ∃ t, exec (.encNec 4 8) State.reset = .next t ∧ t.handOff.isNone = true :=
  ⟨reset_wf, nextIs_exists (by decide), nextIs_exists (by decide +kernel)⟩

theorem witness_RequestRunsFromReset :
    Config.reference.wf = true ∧ decode Config.reference.nApp ⟨4, 21, 1, 12, 7⟩ = .ok (.encSirc 21 1 12 7) := by
  decide

theorem witness_TableSetChangesOneSlot : Config.reference.table.canonical = true ∧ Table.canonical [] = true := by
  decide

/-- Lines that assemble, one of each form of OnlyRawFormsWriteReservedWords, and the ends of the raw codes. -/
theorem witness_OnlyRawFormsWriteReservedWords :
    assemble 1 (.resolve (.name (.app 0))) = some ⟨0x4001, 0, 0, 0, 0⟩ ∧
      assemble 1 (.resolve (.code 0x41)) = some ⟨0x4101, 0, 0, 0, 0⟩ ∧
      assemble 1 (.resolve (.code 255)) = some ⟨0xFF01, 0, 0, 0, 0⟩ ∧ assemble 1 (.resolve (.code 256)) = none ∧
      assemble 1 (.req 0x13 0 0 0 0) = some ⟨0x13, 0, 0, 0, 0⟩ := by decide

/-- The ends of the literals' range, and the first literals outside it. -/
theorem witness_AssembledLinesDecode :
    (Key.app 0).wf 1 = true ∧ ¬ (Key.app 1).wf 1 = true ∧ (∀ x ∈ [-2 ^ 31, (2 ^ 32 - 1 : Int)], -2 ^ 31 ≤ x ∧ x ≤ 2 ^ 32 - 1) ∧
      ∀ x ∈ [-2 ^ 31 - 1, (2 ^ 32 : Int)], ¬ (-2 ^ 31 ≤ x ∧ x ≤ 2 ^ 32 - 1) := by decide

end Sys2Proof.Tests
end

section
/-! # The family of the state: what a step keeps, what a request writes, what reset leaves

Proofs of the statements about the state (10_state.md). Each rests on one lemma that says what the result registers are
after a completion, after a reset or after any other host move. -/

namespace Sys2Proof

/-! ## A well-formed configuration, clause by clause of R32 -/

open Says

theorem keyAssigned_iff {nApp : Nat} {k : KeyCode} :
    keyAssigned nApp k = true ↔ KeyCodeAssigned nApp k.toNat := by
  simp [keyAssigned, KeyCodeAssigned, or_assoc]

/-- A field of R28 to R30 that may not be 0 is at least 1. -/
theorem word_ne_zero_iff {w : Word} : w ≠ 0 ↔ 1 ≤ w.toNat := by
  rw [ne_eq, ← BitVec.toNat_inj, Nat.one_le_iff_ne_zero]
  rfl

theorem Entry.wf_iff_legal {n : Nat} {e : Entry} : e.wf n = true ↔ EntryLegal n e := by
  cases e with
  | empty => simp [Entry.wf, EntryLegal]
  | nec addr cmd carrier => simp only [Entry.wf, EntryLegal, decide_eq_true_eq, word_ne_zero_iff]
  | sirc cmd dev ext unit carrier =>
    simp only [Entry.wf, EntryLegal, Bool.and_eq_true, Bool.not_eq_true', Machine.unitTimeInvalid_eq_false,
      decide_eq_true_eq, word_ne_zero_iff, and_assoc]
  | captured clen cdur carrier =>
    simp only [Entry.wf, EntryLegal, Bool.and_eq_true, decide_eq_true_eq, List.all_eq_true, word_ne_zero_iff, and_assoc]

/-- A canonical table lists no EMPTY entry. -/
theorem Table.ne_empty_of_mem {t : Table} (hc : t.canonical = true) {k : KeyCode} {e : Entry} (h : (k, e) ∈ t) :
    e ≠ .empty := by
  induction t with
  | nil => cases h
  | cons x t ih =>
    obtain ⟨hne, -, hc'⟩ := Table.canonical_cons.mp hc
    rcases List.mem_cons.mp h with rfl | h
    · exact hne
    · exact ih hc' h

/-- Over a canonical table, the check that walks the listed slots is R32, which speaks of all 256 of them. -/
theorem Config.wf_iff_legal {c : Config} (hc : c.table.canonical = true) : c.wf = true ↔ ConfigLegal c := by
  constructor
  · intro h
    obtain ⟨hn, hm, -, hslots⟩ := Config.wf_iff.mp h
    refine ⟨hn, hm, fun k hk => ?_, fun k => Entry.wf_iff_legal.mp (Config.wf_lookup h k)⟩
    by_contra he
    exact hk (keyAssigned_iff.mp (hslots k _ (Table.mem_of_lookup he)).1)
  · rintro ⟨hn, hm, hkeys, hentries⟩
    refine Config.wf_iff.mpr ⟨hn, hm, hc, fun k e hmem => ?_⟩
    have hlookup : c.table.lookup k = e := Table.lookup_of_mem hc hmem
    have hassigned : KeyCodeAssigned c.nApp k.toNat := by
      by_contra hk
      exact Table.ne_empty_of_mem hc hmem (hlookup ▸ hkeys k hk)
    exact ⟨keyAssigned_iff.mpr hassigned, Entry.wf_iff_legal.mpr (hlookup ▸ hentries k)⟩

/-! ## Decoding a request whose operands are read -/

theorem decode_of_req_two {nApp : Nat} {r : Request} (h : r.req.toNat = 2) :
    decode nApp r = .ok (.encNec r.opa r.opb) := by
  obtain ⟨req, opa, opb, opc, opd⟩ := r
  obtain rfl : req = reqWord 2 0 := BitVec.eq_of_toNat_eq h
  simp [decode, withoutKey]

theorem decode_of_req_three {nApp : Nat} {r : Request} (h : r.req.toNat = 3) :
    decode nApp r = .ok (.encSirc20 r.opa r.opb r.opc r.opd) := by
  obtain ⟨req, opa, opb, opc, opd⟩ := r
  obtain rfl : req = reqWord 3 0 := BitVec.eq_of_toNat_eq h
  simp [decode, withoutKey]

theorem decode_of_req_four {nApp : Nat} {r : Request} (h : r.req.toNat = 4) :
    decode nApp r = .ok (.encSirc r.opa r.opb r.opc r.opd) := by
  obtain ⟨req, opa, opb, opc, opd⟩ := r
  obtain rfl : req = reqWord 4 0 := BitVec.eq_of_toNat_eq h
  simp [decode, withoutKey]

namespace Machine

/-! ## Fetching with an unwritten register -/

/-- The register that is found is one of the list, and the host has not written it. -/
theorem firstUnwritten_eq_some {s : State} {ps : List Port} {p : Port} (h : s.firstUnwritten ps = some p) :
    p ∈ ps ∧ (s.port p).written = false :=
  ⟨List.mem_of_find?_eq_some h, by simpa using List.find?_some h⟩

theorem issue_of_req_unwritten {s : State} (h : s.req.written = false) :
    issue s = .fault (.portUnwritten .req) := by
  simp [issue, fetch, State.firstUnwritten, State.port, h]

/-- A request that decodes and reads a register not written faults on one of the registers it reads (R74, R235). -/
theorem issue_of_operand_unwritten {s : State} {i : Instr} (hw : s.req.written = true)
    (hd : decode s.config.nApp s.request = .ok i) (hp : ¬ ∀ p ∈ operandPorts i, (s.port p).written = true) :
    ∃ p ∈ operandPorts i, (s.port p).written = false ∧ issue s = .fault (.portUnwritten p) := by
  obtain ⟨p, hfirst⟩ := Option.ne_none_iff_exists'.mp (mt firstUnwritten_eq_none.mp hp)
  obtain ⟨hmem, hunwritten⟩ := firstUnwritten_eq_some hfirst
  have hreq : s.firstUnwritten [.req] = none := firstUnwritten_eq_none.mpr (by simpa [State.port] using hw)
  exact ⟨p, hmem, hunwritten, by simp only [issue, fetch, hreq, hd, hfirst]⟩

/-! ## The result registers after a completion -/

/-- A completion writes nothing but the result registers. -/
theorem Completion.onlyResultsChanged {s t : State} {st : Status} {f : Word} {p : Pattern}
    (h : Completion s t st f p) : OnlyResultsChanged s t := by
  rw [h.writes]
  exact ⟨rfl, rfl, rfl, rfl, rfl, rfl, rfl⟩

/-- What a completion writes depends on the state before it through MAX_PATTERN_LEN alone. -/
theorem State.writeResults_sameResults {s u : State} (h : s.config = u.config) (st : Status) (f : Word) (p : Pattern) :
    SameResults (s.writeResults st f p) (u.writeResults st f p) :=
  ⟨rfl, rfl, rfl, by simp [h]⟩

theorem Status.code_mem_statusWords (st : Status) : st.code ∈ statusWords := by cases st <;> decide

theorem Status.code_eq_ok_code {st : Status} : st.code = Status.ok.code ↔ st = .ok := by cases st <;> decide

/-- The codes of the statuses a request can write (R80). -/
theorem Status.code_bounds {st : Status} (h : st ≠ .none) : 1 ≤ st.code.toNat ∧ st.code.toNat ≤ 4 := by
  cases st with
  | none => exact absurd rfl h
  | _ => decide

/-- PAT holds a pattern that fits as positive durations, and 0 from its length on (R25, R106). -/
theorem patBuffer_getD_ne_zero {n : Nat} {p : Pattern} (hf : Fits n p) {i : Nat} (hi : i < p.length) :
    (patBuffer n p).getD i 0 ≠ 0 := by
  obtain ⟨-, hle, hvalid⟩ := validPattern_iff.mp hf.1
  obtain ⟨hpos, hlt⟩ := hvalid p[i] (List.getElem_mem hi)
  rw [patBuffer_getD, if_pos (by omega), List.getD_eq_getElem p 0 hi, word_ne_zero_iff, BitVec.toNat_ofNat,
    Nat.mod_eq_of_lt hlt]
  exact hpos

theorem patBuffer_getD_eq_zero {n : Nat} {p : Pattern} {i : Nat} (hi : p.length ≤ i) :
    (patBuffer n p).getD i 0 = 0 := by
  rw [patBuffer_getD, List.getD_eq_default p 0 hi]
  split <;> rfl

/-- Where no pattern is held, good result registers are a status other than OK beside carrier, length and PAT 0. -/
theorem State.resultsGood_of_cleared {s : State} {st : Status} (hst : st ≠ .ok) (hs : s.resStatus = st.code)
    (hf : s.resCarrier = 0) (hl : s.resLen = 0) (hp : s.pat = List.replicate s.config.maxPatternLen 0) :
    s.ResultsGood := by
  have hok : s.resStatus ≠ Status.ok.code := by rwa [hs, ne_eq, Status.code_eq_ok_code]
  exact ⟨hs ▸ st.code_mem_statusWords, by simp [hp], fun h => absurd h hok, fun _ => ⟨hl, hf⟩,
    fun i _ => by rw [hp, ← patBuffer_nil, patBuffer_getD_eq_zero (Nat.zero_le i)]⟩

/-- After a completion the result registers are as R22 to R25 have them, whatever they were before. -/
theorem Completion.resultsGood {s t : State} {st : Status} {f : Word} {p : Pattern} (h : Completion s t st f p) :
    t.ResultsGood := by
  rw [h.writes]
  by_cases hst : st = .ok
  · subst hst
    have hfits : Fits s.config.maxPatternLen p := h.fits rfl
    obtain ⟨hpos, hle, -⟩ := validPattern_iff.mp hfits.1
    have hlen : (s.writeResults .ok f p).resLen.toNat = p.length := by
      simpa using Nat.mod_eq_of_lt hfits.2
    refine ⟨Status.code_mem_statusWords .ok, by simp, fun _ => ?_, fun hne => absurd rfl hne, ?_⟩
    · rw [hlen]
      exact ⟨hpos, hle, fun i hi => patBuffer_getD_ne_zero hfits hi⟩
    · rw [hlen]
      exact fun i hi => patBuffer_getD_eq_zero hi
  · exact State.resultsGood_of_cleared hst rfl (if_neg hst) (if_neg hst) (by simp [hst])

/-! ## The result registers after a reset and after any other move -/

theorem State.resetWith_resultsGood (c : Config) : (State.resetWith c).ResultsGood :=
  State.resultsGood_of_cleared (st := .none) (by decide) rfl rfl rfl rfl

theorem State.hostReset_resultsGood (s : State) : s.hostReset.ResultsGood :=
  State.resultsGood_of_cleared (st := .none) (by decide) rfl rfl rfl rfl

/-- What the host reads where nothing is held: the status, and 0 everywhere else. -/
theorem errorIs_of_cleared {t : State} (hf : t.resCarrier = 0) (hl : t.resLen = 0)
    (hp : t.pat = List.replicate t.config.maxPatternLen 0) : ErrorIs t t.resStatus.toNat := by
  refine ⟨⟨t.resStatus, rfl, rfl⟩, congrArg some hf, ⟨t.resLen, rfl, by rw [hl]; rfl⟩, fun i hi => ⟨0, ?_, by simp⟩⟩
  simp [State.readResult, State.patRead, hp, hi]

/-- A move that is neither a request nor a reset leaves the result registers as they are (R26). -/
theorem act_sameResults {a : HostAction} {s t : State} (h : act a s = .next t) (hi : a ≠ .issue) (hr : a ≠ .reset) :
    SameResults s t := by
  rcases act_next h with ⟨p, v, _, rfl⟩ | ⟨ha, _⟩ | ⟨ha, _⟩ | ⟨rfl, _⟩
  · simp [SameResults]
  · exact absurd ha hi
  · exact absurd ha hr
  · exact ⟨rfl, rfl, rfl, rfl⟩

/-- No host move changes the configuration (R33). -/
theorem act_config {a : HostAction} {s t : State} (h : act a s = .next t) : t.config = s.config := by
  rcases act_next h with ⟨p, v, _, rfl⟩ | ⟨_, hi⟩ | ⟨_, rfl⟩ | ⟨rfl, _⟩
  · exact State.writePort_config s p v
  · obtain ⟨st, f, p, hcomp⟩ := issue_next hi
    exact hcomp.onlyResultsChanged.1
  · exact State.hostReset_config s
  · rfl

/-- Good result registers are a matter of their values and MAX_PATTERN_LEN alone. -/
theorem State.ResultsGood.congr {s t : State} (h : s.ResultsGood) (hr : SameResults s t) (hc : t.config = s.config) :
    t.ResultsGood := by
  obtain ⟨hst, hf, hl, hp⟩ := hr
  simpa only [State.ResultsGood, hst, hf, hl, hp, hc] using h

/-- Every host move keeps the result registers good: a request and a reset make them so, any other leaves them. -/
theorem act_resultsGood {a : HostAction} {s t : State} (h : act a s = .next t) (hs : s.ResultsGood) :
    t.ResultsGood := by
  by_cases hi : a = .issue
  · subst hi
    obtain ⟨st, f, p, hcomp⟩ := issue_next h
    exact hcomp.resultsGood
  by_cases hr : a = .reset
  · subst hr
    cases h
    exact s.hostReset_resultsGood
  exact hs.congr (act_sameResults h hi hr) (act_config h)

/-! ## What can be handed over -/

/-- After a completion there is something to hand over exactly when it is an OK with a carrier (R218). -/
theorem State.handOff_writeResults_isSome {s : State} {st : Status} {f : Word} {p : Pattern} :
    (s.writeResults st f p).handOff.isSome = true ↔ st = .ok ∧ f ≠ 0 := by
  by_cases hst : st = .ok <;> simp [State.handOff, Status.code_eq_ok_code, hst]

/-- A completion that pairs no carrier leaves nothing to hand over (R23). -/
theorem finish_zero_handOff {st : Status} {p : Pattern} {s t : State} (h : finish st 0 p s = .next t) :
    ¬ t.handOff.isSome = true := by
  simp [(finish_next h).1, State.handOff_writeResults_isSome]

theorem complete_zero_handOff {r : Except Status Pattern} {s t : State} (h : complete 0 r s = .next t) :
    ¬ t.handOff.isSome = true := by
  cases r with
  | ok p => exact finish_zero_handOff h
  | error st => exact finish_zero_handOff h

/-- A legal entry other than EMPTY has a carrier, and its RESOLVE completes with OK and that carrier (R173 to R175). -/
theorem exec_resolve_of_entry {s : State} {key : Key} (hc : s.config.wf = true)
    (hne : s.config.table.lookup key.code ≠ .empty) :
    ∃ f p, f ≠ 0 ∧ exec (.resolve key) s = .next (s.writeResults .ok f p) := by
  have hn := Config.wf_maxPatternLen hc
  have hwf := Config.wf_lookup hc key.code
  cases he : s.config.table.lookup key.code with
  | empty => exact absurd he hne
  | nec addr cmd carrier =>
    rw [he, Entry.wf, decide_eq_true_eq] at hwf
    exact ⟨carrier, _, hwf, exec_resolve_nec (by omega) he⟩
  | sirc cmd dev ext unit carrier =>
    simp only [he, Entry.wf, Bool.and_eq_true, Bool.not_eq_true', decide_eq_true_eq] at hwf
    exact ⟨carrier, _, hwf.2, exec_resolve_sirc (by omega) hwf.1 he⟩
  | captured clen cdur carrier =>
    rw [he] at hwf
    have hfits := capturedPattern_fits hwf
    simp only [Entry.wf, Bool.and_eq_true, decide_eq_true_eq] at hwf
    exact ⟨carrier, _, hwf.2, exec_resolve_captured hfits he⟩

theorem handOff_resolve_isSome {s t : State} {key : Key} (hc : s.config.wf = true)
    (h : exec (.resolve key) s = .next t) :
    t.handOff.isSome = true ↔ s.config.table.lookup key.code ≠ .empty := by
  by_cases he : s.config.table.lookup key.code = .empty
  · obtain rfl : s.writeResults .noPatternDefined 0 [] = t := by simpa [exec_resolve_empty he] using h
    simp [State.handOff_writeResults_isSome, he]
  · obtain ⟨f, p, hf, hexec⟩ := exec_resolve_of_entry hc he
    obtain rfl : s.writeResults .ok f p = t := by simpa [hexec] using h
    simpa [State.handOff_writeResults_isSome, he] using hf

end Machine

/-! ## The obligations -/

open Machine

/-- Settles O37: a step waits or makes one move, and every move keeps the invariant. -/
theorem stepKeepsGood : Obligations.StepKeepsGood := by
  intro s t ⟨hwf, hgood⟩ h
  refine ⟨by rw [step_config h]; exact hwf, ?_⟩
  rcases (step_next h).2 with ⟨_, rfl⟩ | ⟨a, rest, _, ha⟩
  · exact hgood
  · exact act_resultsGood ha hgood

/-- Settles O52: by the kinds of step. -/
theorem stepKeepsConfiguration : Obligations.StepKeepsConfiguration :=
  fun _ _ h => step_config h

/-- Settles O9: REQ is looked at first; then the words 2, 3 and 4 decode, and the registers they read are looked at. -/
theorem unwrittenPortFaults : Obligations.UnwrittenPortFaults := by
  intro s rest ⟨hwf, hscript⟩
  have hstep : step s = issue { s with script := rest } := step_cons hwf hscript
  rw [hstep]
  refine ⟨fun hw => issue_of_req_unwritten hw, fun hw h2 hun => ?_, fun hw h34 hun => ?_⟩
  · obtain ⟨p, hmem, hp, hfault⟩ := issue_of_operand_unwritten (s := { s with script := rest }) hw
      (decode_of_req_two h2) (by simpa [operandPorts, State.port] using hun)
    exact ⟨p, by simpa [operandPorts] using hmem, by simpa using hp, hfault⟩
  · obtain ⟨i, hd, hports⟩ : ∃ i, decode s.config.nApp s.request = .ok i ∧ operandPorts i = [.opa, .opb, .opc, .opd] :=
      h34.elim (fun h3 => ⟨_, decode_of_req_three h3, rfl⟩) (fun h4 => ⟨_, decode_of_req_four h4, rfl⟩)
    obtain ⟨p, hmem, hp, hfault⟩ := issue_of_operand_unwritten (s := { s with script := rest }) hw hd
      (by simpa [hports, State.port] using hun)
    refine ⟨p, ?_, by simpa using hp, hfault⟩
    rintro rfl
    simp [hports] at hmem

/-- Settles O30: a request that goes on is one completion, and no completion is with NONE. -/
theorem requestWritesALegalStatus : Obligations.RequestWritesALegalStatus := by
  intro s t h
  obtain ⟨st, f, p, hcomp⟩ := issue_next h
  rw [hcomp.writes]
  exact Status.code_bounds hcomp.not_none

/-- Settles O32: a request that goes on is one completion. -/
theorem requestChangesOnlyResults : Obligations.RequestChangesOnlyResults := by
  intro s t h
  obtain ⟨st, f, p, hcomp⟩ := issue_next h
  exact hcomp.onlyResultsChanged

/-- Settles O34: by the kinds of move, and because an instruction writes the same completion in both states. -/
theorem resultsWrittenOnlyByRequestAndReset : Obligations.ResultsWrittenOnlyByRequestAndReset := by
  refine ⟨fun s t a h hi hr => act_sameResults h hi hr, fun i s u t hc h => ?_⟩
  obtain ⟨st, f, p, rfl, hu⟩ := exec_congr h
  exact ⟨_, hu u hc.symm, State.writeResults_sameResults hc st f p⟩

/-- Settles O39: over a canonical table, R32's clauses are the model's check. -/
theorem illFormedConfigurationRefused : Obligations.IllFormedConfigurationRefused := by
  intro c hcanon
  rw [← Config.wf_iff_legal hcanon]
  refine ⟨fun hwf => if_pos hwf, fun hwf => ⟨if_neg hwf, ?_⟩⟩
  rintro s rfl
  exact if_neg hwf

/-- Settles O46: a RESOLVE of an entry pairs the entry's carrier, which is not 0; nothing else pairs a carrier. -/
theorem onlyResolveCanBeHandedOver : Obligations.OnlyResolveCanBeHandedOver := by
  intro i s t hc h
  cases i with
  | resolve key => simpa using handOff_resolve_isSome hc h
  | encNec a b => simpa using finish_zero_handOff (p := encNecPattern a b) h
  | encSirc20 a b c d => simpa using complete_zero_handOff (r := encSirc20Pattern a b c d) h
  | encSirc a b c d => simpa using complete_zero_handOff (r := encSircPattern a b c d) h

/-- Settles O38: reset clears the result registers. -/
theorem resetIsGood : Obligations.ResetIsGood :=
  ⟨fun c hc => ⟨hc, State.resetWith_resultsGood c⟩, by decide, State.resetWith_resultsGood Config.reference⟩

/-- Settles O40: a well-formed configuration is installed, and reset clears every other register. -/
theorem resetValues : Obligations.ResetValues :=
  fun c hc => ⟨State.resetWith c, if_pos hc, rfl, errorIs_of_cleared rfl rfl rfl, fun p => by cases p <;> rfl⟩

/-- Settles O41: the step is the host's reset. -/
theorem resetMove : Obligations.ResetMove := by
  intro s rest ⟨hwf, hscript⟩
  refine ⟨({ s with script := rest } : State).hostReset, step_cons hwf hscript, rfl, errorIs_of_cleared rfl rfl rfl,
    fun p => ?_, rfl⟩
  rw [State.hostReset_port]
  rfl

/-- Settles O42: the step is the write of one port register. -/
theorem writeMove : Obligations.WriteMove := by
  intro s p v rest ⟨hwf, hscript⟩
  refine ⟨({ s with script := rest } : State).writePort p v, step_write hwf hscript, by simp,
    fun q hq => by simp [hq], ?_, by simp, by simp⟩
  simp [SameResults]

end Sys2Proof
end

section
/-! # The family of the memory: what issuing a request and reading a result register leave alone

Proofs of the statements about the two indexed spaces and their accesses (20_memory.md). A request writes nothing it
reads, and the host's read of a result register writes nothing at all. -/

namespace Sys2Proof

namespace Machine

/-! ## A request writes nothing it reads -/

/-- A fetch looks at no result register (R54). -/
theorem fetch_writeResults (s : State) (st : Status) (f : Word) (p : Pattern) :
    fetch (s.writeResults st f p) = fetch s := rfl

/-- A completion changes nothing a request looks at: issued after it, the request does what it would have done before. -/
theorem issue_writeResults (s : State) (st : Status) (f : Word) (p : Pattern) :
    issue (s.writeResults st f p) = issue s := by
  rw [issue, issue, fetch_writeResults]
  split
  · rfl
  · rw [raise_eq (by decide), raise_eq (by decide), State.writeResults_writeResults]
  · exact exec_writeResults s st f p _

/-- A request whose REQ and whose operand registers are written is the instruction its words decode to (R54, R107). -/
theorem issue_of_decode {s : State} {i : Instr} (hreq : s.req.written = true)
    (hdecode : decode s.config.nApp s.request = .ok i) (hports : ∀ p ∈ operandPorts i, (s.port p).written = true) :
    issue s = exec i s := by
  refine issue_exec ?_
  rw [fetch_eq hreq fun j hj => ?_, hdecode]
  obtain rfl : i = j := Except.ok.inj (hdecode.symm.trans hj)
  exact hports

/-! ## The host's read of a result register -/

/-- The elements PAT has (R25, R50). -/
theorem State.readResult_pat_isSome {s : State} {i : Nat} :
    (s.readResult (.pat i)).isSome = true ↔ i < s.config.maxPatternLen := by
  simp [State.readResult, State.patRead]

@[simp] theorem State.setScript_readResult (s : State) (l : List HostAction) (r : ResultReg) :
    ({ s with script := l } : State).readResult r = s.readResult r := by
  cases r <;> rfl

/-- Reading a register that exists changes nothing (R55). -/
theorem act_read_of_isSome {s : State} {r : ResultReg} (h : (s.readResult r).isSome = true) :
    act (.read r) s = .next s := by
  cases r with
  | status => rfl
  | carrier => rfl
  | len => rfl
  | pat i => exact if_pos (State.readResult_pat_isSome.mp h)

/-- PAT has no element at or past MAX_PATTERN_LEN (R50; log 12). -/
theorem act_read_pat_of_le {s : State} {i : Nat} (h : s.config.maxPatternLen ≤ i) :
    act (.read (.pat i)) s = .fault (.noSuchElement i) :=
  if_neg h.not_gt

end Machine

/-! ## The obligations -/

open Machine

/-- Settles O35: the first issue is one completion, and the same request issued after it does the same. -/
theorem sameRequestTwice : Obligations.SameRequestTwice := by
  intro s t h
  obtain ⟨st, f, p, hcomp⟩ := issue_next h
  calc issue t = issue (s.writeResults st f p) := by rw [hcomp.writes]
    _ = issue s := issue_writeResults s st f p
    _ = .next t := h

/-- Settles O6: the step issues the request, whose registers are as they were before the move was taken off the script. -/
theorem stepRunsDecodedRequest : Obligations.StepRunsDecodedRequest := by
  intro s rest i ⟨hwf, hscript⟩ hreq hdecode hports
  have hissue : issue { s with script := rest } = exec i { s with script := rest } :=
    issue_of_decode hreq hdecode (by simpa using hports)
  exact (step_cons hwf hscript).trans hissue

/-- Settles O43: the step is the host's read. -/
theorem readMove : Obligations.ReadMove := by
  intro s r rest ⟨hwf, hscript⟩
  rw [step_cons hwf hscript]
  refine ⟨fun hsome => act_read_of_isSome (by simpa using hsome), ?_⟩
  rintro i rfl hi
  exact act_read_pat_of_le hi

end Sys2Proof
end

section
/-! # The family of the encoding: what a request word stands for, and what a line assembles to

Proofs of the statements about requests as words (30_encoding.md). `decode_eq_ok_iff` says once which five words the
decoder accepts, as which instruction; an assembled line is then the encoding of its instruction, or a raw form. -/

namespace Sys2Proof

open Says

/-! ## The REQ word as a number -/

theorem reqWord_toNat (op : BitVec 4) (key : KeyCode) : (reqWord op key).toNat = op.toNat + 256 * key.toNat := by
  have hor : key.toNat <<< 8 + op.toNat = key.toNat <<< 8 ||| op.toNat :=
    Nat.shiftLeft_add_eq_or_of_lt (by omega) _
  calc (reqWord op key).toNat = key.toNat <<< 8 ||| op.toNat := by
        simp only [reqWord, BitVec.toNat_append, BitVec.toNat_ofNat]
        simp [← Nat.shiftLeft_add]
    _ = op.toNat + 256 * key.toNat := by
        rw [← hor, Nat.shiftLeft_eq]
        omega

/-- With both reserved fields 0, REQ is OP + 256 * KEY (R71). -/
theorem Request.req_toNat_of_fields {r : Request} (h0 : r.rsv0 = 0) (h1 : r.rsv1 = 0) :
    r.req.toNat = r.op.toNat + 256 * r.key.toNat := by
  rw [← reqWord_of_fields r h0 h1, reqWord_toNat]

/-! ## What the decoder accepts -/

/-- The five words carry the instruction: REQ is the word of its row of R84, and the operand words it reads are its
operands (R71, R74). -/
def Request.Carries (r : Request) : Instr → Prop
  | .resolve key => r.req.toNat = 1 + 256 * key.code.toNat
  | .encNec a b => r.req.toNat = 2 ∧ a = r.opa ∧ b = r.opb
  | .encSirc20 a b c d => r.req.toNat = 3 ∧ a = r.opa ∧ b = r.opb ∧ c = r.opc ∧ d = r.opd
  | .encSirc a b c d => r.req.toNat = 4 ∧ a = r.opa ∧ b = r.opb ∧ c = r.opc ∧ d = r.opd

theorem encode_carries (i : Instr) : (encode i).Carries i := by
  cases i with
  | resolve key => exact reqWord_toNat 1 key.code
  | encNec a b => exact ⟨rfl, rfl, rfl⟩
  | encSirc20 a b c d => exact ⟨rfl, rfl, rfl, rfl, rfl⟩
  | encSirc a b c d => exact ⟨rfl, rfl, rfl, rfl, rfl⟩

theorem decode_of_req_resolve {nApp : Nat} {r : Request} {key : Key} (hkey : key.wf nApp = true)
    (h : r.req.toNat = 1 + 256 * key.code.toNat) : decode nApp r = .ok (.resolve key) := by
  obtain ⟨req, opa, opb, opc, opd⟩ := r
  obtain rfl : req = reqWord 1 key.code := BitVec.eq_of_toNat_eq (h.trans (reqWord_toNat 1 key.code).symm)
  simp [decode, keyOfCode_code hkey]

/-- The decoder accepts the words that carry an instruction which is well formed under N_APP, as that instruction. -/
theorem decode_eq_ok_iff {nApp : Nat} {r : Request} {i : Instr} :
    decode nApp r = .ok i ↔ i.wf nApp = true ∧ r.Carries i := by
  constructor
  · intro h
    obtain ⟨h1, h0, hop⟩ := decode_ok_cases h
    have hreq := Request.req_toNat_of_fields h0 h1
    rcases hop with ⟨hop, key, rfl, hkey⟩ | ⟨hop, hkey, rfl⟩ | ⟨hop, hkey, rfl⟩ | ⟨hop, hkey, rfl⟩
    · obtain ⟨hwf, hcode⟩ := keyOfCode_eq_some.mp hkey
      exact ⟨hwf, by simpa [Request.Carries, hop, hcode] using hreq⟩
    · exact ⟨rfl, by simpa [hop, hkey] using hreq, rfl, rfl⟩
    · exact ⟨rfl, by simpa [hop, hkey] using hreq, rfl, rfl, rfl, rfl⟩
    · exact ⟨rfl, by simpa [hop, hkey] using hreq, rfl, rfl, rfl, rfl⟩
  · rintro ⟨hwf, hcarries⟩
    cases i with
    | resolve key => exact decode_of_req_resolve hwf hcarries
    | encNec a b =>
      obtain ⟨hreq, rfl, rfl⟩ := hcarries
      exact decode_of_req_two hreq
    | encSirc20 a b c d =>
      obtain ⟨hreq, rfl, rfl, rfl, rfl⟩ := hcarries
      exact decode_of_req_three hreq
    | encSirc a b c d =>
      obtain ⟨hreq, rfl, rfl, rfl, rfl⟩ := hcarries
      exact decode_of_req_four hreq

theorem decode_encode {nApp : Nat} {i : Instr} (h : i.wf nApp = true) : decode nApp (encode i) = .ok i :=
  decode_eq_ok_iff.mpr ⟨h, encode_carries i⟩

/-! ## Key codes -/

/-- The assigned codes of R79 are the codes of the keys that exist. -/
theorem keyCodeAssigned_iff {nApp : Nat} (hn : nApp ≤ 64) (k : KeyCode) :
    KeyCodeAssigned nApp k.toNat ↔ ∃ key : Key, key.wf nApp = true ∧ key.code = k := by
  simp only [← keyAssigned_iff, ← keyOfCode_isSome hn, Option.isSome_iff_exists, keyOfCode_eq_some]

/-- At the largest N_APP every key exists. -/
theorem Key.wf_sixtyFour (key : Key) : key.wf 64 = true := by
  cases key with
  | digit d => rfl
  | button b => rfl
  | app n => exact decide_eq_true n.isLt

/-- Under N_APP = 64 every code names the key it is the code of, so no two keys share one. -/
theorem Key.code_injective : Function.Injective Key.code := by
  intro key key' h
  have hkey := keyOfCode_code key.wf_sixtyFour
  rw [h, keyOfCode_code key'.wf_sixtyFour] at hkey
  exact (Option.some.inj hkey).symm

theorem Key.code_digit_toNat (d : Fin 10) : (Key.digit d).code.toNat = d.val := by
  simp only [Key.code, BitVec.toNat_ofNat]
  omega

theorem Key.code_app_toNat (n : Fin 64) : (Key.app n).code.toNat = 0x40 + n.val := by
  simp only [Key.code, BitVec.toNat_ofNat]
  omega

/-! ## Legal words -/

/-- The words that carry a well-formed instruction are those with Legal(REQ) (R73). -/
theorem legalReq_iff {nApp : Nat} (hn : nApp ≤ 64) (r : Request) :
    LegalReq nApp r.req.toNat ↔ ∃ i : Instr, i.wf nApp = true ∧ r.Carries i := by
  constructor
  · rintro ⟨hrsv1, hrsv0, hop, hkey⟩
    split at hkey
    case isTrue hop1 =>
      have hcode : (BitVec.ofNat 8 (r.req.toNat / 256 % 256)).toNat = r.req.toNat / 256 % 256 := by
        simp only [BitVec.toNat_ofNat]; omega
      rw [← hcode, keyCodeAssigned_iff hn] at hkey
      obtain ⟨key, hwf, hkey⟩ := hkey
      refine ⟨.resolve key, hwf, ?_⟩
      rw [Request.Carries, hkey, hcode]
      omega
    case isFalse hop1 =>
      rcases hop with hop | hop | hop | hop
      · exact absurd hop hop1
      · exact ⟨.encNec r.opa r.opb, rfl, by omega, rfl, rfl⟩
      · exact ⟨.encSirc20 r.opa r.opb r.opc r.opd, rfl, by omega, rfl, rfl, rfl, rfl⟩
      · exact ⟨.encSirc r.opa r.opb r.opc r.opd, rfl, by omega, rfl, rfl, rfl, rfl⟩
  · rintro ⟨i, hwf, hcarries⟩
    cases i with
    | resolve key =>
      have hreq : r.req.toNat = 1 + 256 * key.code.toNat := hcarries
      have hassigned := (keyCodeAssigned_iff hn key.code).mpr ⟨key, hwf, rfl⟩
      have hcode : r.req.toNat / 256 % 256 = key.code.toNat := by omega
      exact ⟨by omega, by omega, .inl (by omega), by rw [if_pos (by omega), hcode]; exact hassigned⟩
    | encNec a b => simp [LegalReq, hcarries.1]
    | encSirc20 a b c d => simp [LegalReq, hcarries.1]
    | encSirc a b c d => simp [LegalReq, hcarries.1]

namespace Machine

/-! ## Issuing a request whose registers are written -/

/-- Whatever written registers hold, the request is a reserved encoding or an instruction, and either completes. -/
theorem issue_completes_of_written {s : State} (hwf : s.config.wf = true) (hports : ∀ p, (s.port p).written = true) :
    ∃ t, issue s = .next t := by
  have hfetch := fetch_eq (hports .req) fun _ _ p _ => hports p
  cases hd : decode s.config.nApp s.request with
  | error why => exact ⟨_, issue_reserved (hfetch.trans (congrArg _ hd))⟩
  | ok i =>
    obtain ⟨st, f, p, -, -, hexec⟩ := exec_writes hwf i
    exact ⟨_, (issue_exec (hfetch.trans (congrArg _ hd))).trans (hexec s rfl)⟩

/-! ## What a line assembles to -/

/-- Assembling goes on past a literal exactly when the literal is in range, with its two's-complement word (R82). -/
theorem literalWord_bind {α : Type} (n : Int) (f : Word → Option α) :
    (literalWord n).bind f = if -2 ^ 31 ≤ n ∧ n ≤ 2 ^ 32 - 1 then f (BitVec.ofInt 32 n) else none := by
  unfold literalWord
  split <;> rfl

theorem assemble_resolve_name (nApp : Nat) (key : Key) :
    assemble nApp (.resolve (.name key)) = if key.wf nApp = true then some (encode (.resolve key)) else none := by
  simp only [assemble, expand, assembleExpanded, keyArgCode]
  split <;> rfl

theorem assemble_resolve_code (nApp : Nat) (c : Int) :
    assemble nApp (.resolve (.code c)) =
      if 0 ≤ c ∧ c ≤ 255 then some ⟨reqWord 1 (BitVec.ofInt 8 c), 0, 0, 0, 0⟩ else none := by
  simp only [assemble, expand, assembleExpanded, keyArgCode]
  split <;> rfl

theorem assemble_encNec (nApp : Nat) (a b : Int) :
    assemble nApp (.encNec a b) =
      if (∀ x ∈ [a, b], -2 ^ 31 ≤ x ∧ x ≤ 2 ^ 32 - 1) then
        some (encode (.encNec (BitVec.ofInt 32 a) (BitVec.ofInt 32 b)))
      else none := by
  simp [assemble, expand, assembleExpanded, literalWord_bind, encode, ite_and]

theorem assemble_encSirc20 (nApp : Nat) (a b c d : Int) :
    assemble nApp (.encSirc20 a b c d) =
      if (∀ x ∈ [a, b, c, d], -2 ^ 31 ≤ x ∧ x ≤ 2 ^ 32 - 1) then
        some (encode (.encSirc20 (BitVec.ofInt 32 a) (BitVec.ofInt 32 b) (BitVec.ofInt 32 c) (BitVec.ofInt 32 d)))
      else none := by
  simp [assemble, expand, assembleExpanded, literalWord_bind, encode, ite_and]

theorem assemble_encSirc (nApp : Nat) (a b c d : Int) :
    assemble nApp (.encSirc a b c d) =
      if (∀ x ∈ [a, b, c, d], -2 ^ 31 ≤ x ∧ x ≤ 2 ^ 32 - 1) then
        some (encode (.encSirc (BitVec.ofInt 32 a) (BitVec.ofInt 32 b) (BitVec.ofInt 32 c) (BitVec.ofInt 32 d)))
      else none := by
  simp [assemble, expand, assembleExpanded, literalWord_bind, encode, ite_and]

theorem assemble_req (nApp : Nat) (w0 w1 w2 w3 w4 : Int) :
    assemble nApp (.req w0 w1 w2 w3 w4) =
      if (∀ x ∈ [w0, w1, w2, w3, w4], -2 ^ 31 ≤ x ∧ x ≤ 2 ^ 32 - 1) then
        some ⟨BitVec.ofInt 32 w0, BitVec.ofInt 32 w1, BitVec.ofInt 32 w2, BitVec.ofInt 32 w3, BitVec.ofInt 32 w4⟩
      else none := by
  simp [assemble, expand, assembleExpanded, literalWord_bind, ite_and]

/-- Where a line assembles to the encoding of a well-formed instruction, its words decode to that instruction. -/
theorem decode_of_assemble {nApp : Nat} {l : AsmLine} {i : Instr} {P : Prop} [Decidable P]
    (hl : assemble nApp l = if P then some (encode i) else none) (hi : P → i.wf nApp = true) :
    if P then ∃ r, assemble nApp l = some r ∧ decode nApp r = .ok i else assemble nApp l = none := by
  split
  · rename_i hP
    exact ⟨_, by rw [hl, if_pos hP], decode_encode (hi hP)⟩
  · rename_i hP
    rw [hl, if_neg hP]

theorem decode_ok_of_assemble {nApp : Nat} {l : AsmLine} {i : Instr} {r : Request} {P : Prop} [Decidable P]
    (hl : assemble nApp l = if P then some (encode i) else none) (hi : P → i.wf nApp = true)
    (h : assemble nApp l = some r) : ∃ i, decode nApp r = .ok i := by
  obtain ⟨hP, hr⟩ := Option.ite_none_right_eq_some.mp (hl.symm.trans h)
  obtain rfl := Option.some.inj hr
  exact ⟨i, decode_encode (hi hP)⟩

/-- The reserved words come from the raw forms: any other line assembles to the encoding of an instruction (R82). -/
theorem assemble_decodes_or_raw {nApp : Nat} {l : AsmLine} {r : Request} (h : assemble nApp l = some r) :
    (∃ i, decode nApp r = .ok i) ∨ (∃ c, l = .resolve (.code c)) ∨ ∃ w0 w1 w2 w3 w4, l = .req w0 w1 w2 w3 w4 := by
  cases l with
  | resolve k =>
    cases k with
    | name key => exact .inl (decode_ok_of_assemble (assemble_resolve_name nApp key) id h)
    | code c => exact .inr (.inl ⟨c, rfl⟩)
  | req w0 w1 w2 w3 w4 => exact .inr (.inr ⟨w0, w1, w2, w3, w4, rfl⟩)
  | encNec a b => exact .inl (decode_ok_of_assemble (assemble_encNec nApp a b) (fun _ => rfl) h)
  | encNecDefault b => exact .inl (decode_ok_of_assemble (assemble_encNec nApp necDefaultAddress b) (fun _ => rfl) h)
  | encSirc20 a b c d => exact .inl (decode_ok_of_assemble (assemble_encSirc20 nApp a b c d) (fun _ => rfl) h)
  | encSirc20Default a b c =>
    exact .inl (decode_ok_of_assemble (assemble_encSirc20 nApp a b c sircDefaultUnit) (fun _ => rfl) h)
  | encSirc a b c d => exact .inl (decode_ok_of_assemble (assemble_encSirc nApp a b c d) (fun _ => rfl) h)
  | encSircDefault a b c =>
    exact .inl (decode_ok_of_assemble (assemble_encSirc nApp a b c sircDefaultNcmd) (fun _ => rfl) h)
  | encSirc12 a b => exact .inl (decode_ok_of_assemble (assemble_encSirc nApp a b 12 7) (fun _ => rfl) h)
  | encSirc15 a b => exact .inl (decode_ok_of_assemble (assemble_encSirc nApp a b 15 7) (fun _ => rfl) h)

end Machine

/-! ## The obligations -/

open Machine

/-- Settles O1: encoded words carry their instruction, and the decoder accepts what carries a well-formed one. -/
theorem decodeOfEncode : Obligations.DecodeOfEncode :=
  fun _ _ h => decode_encode h

/-- Settles O2: both sides say that the words carry a well-formed instruction. -/
theorem decoderAcceptsExactlyLegalWords : Obligations.DecoderAcceptsExactlyLegalWords := by
  intro nApp r hn
  simp only [legalReq_iff hn, decode_eq_ok_iff]

/-- Settles O3: the rows of the table are the cases of `Request.Carries`. -/
theorem decodingFollowsOpcodeTable : Obligations.DecodingFollowsOpcodeTable :=
  fun _ _ => ⟨fun _ => decode_eq_ok_iff, fun _ _ => decode_eq_ok_iff.trans (and_iff_right rfl),
    fun _ _ _ _ => decode_eq_ok_iff.trans (and_iff_right rfl), fun _ _ _ _ => decode_eq_ok_iff.trans (and_iff_right rfl)⟩

/-- Settles O4: no two keys share a code because a code names one key. -/
theorem keyCodesAsAssigned : Obligations.KeyCodesAsAssigned :=
  ⟨fun _ k hn => keyCodeAssigned_iff hn k, fun _ _ h => Key.code_injective h, Key.code_digit_toNat,
    Key.code_app_toNat, rfl⟩

/-- Settles O5: by evaluating the decoder on each request. -/
theorem specWordsDecode : Obligations.SpecWordsDecode := by
  unfold Obligations.SpecWordsDecode
  decide

/-- Settles O8: REQ alone carries a RESOLVE, which reads no operand register. -/
theorem resolveReadsNoOperand : Obligations.ResolveReadsNoOperand := by
  intro s key hreq hkey hword
  exact issue_of_decode hreq (decode_of_req_resolve hkey hword) (by simp [operandPorts])

/-- Settles O10: the step issues a request whose registers are written, and what it answers is one completion. -/
theorem everyWrittenRequestCompletes : Obligations.EveryWrittenRequestCompletes := by
  intro s rest ⟨hwf, hscript⟩ hreq hopa hopb hopc hopd
  have hports : ∀ p, (State.port { s with script := rest } p).written = true := by
    intro p
    cases p <;> assumption
  obtain ⟨t, hissue⟩ := issue_completes_of_written (s := { s with script := rest }) hwf hports
  obtain ⟨st, f, p, hcomp⟩ := issue_next hissue
  exact ⟨t, (step_cons hwf hscript).trans hissue, hcomp.onlyResultsChanged⟩

/-- Settles O50: each pseudo-instruction is expanded before it is assembled. -/
theorem pseudoInstructionsExpand : Obligations.PseudoInstructionsExpand :=
  fun _ => ⟨fun _ => rfl, fun _ _ _ => rfl, fun _ _ _ => rfl, fun _ _ => rfl, fun _ _ => rfl⟩

/-- Settles O51: each line assembles to the encoding of its instruction exactly where its operands are legal. -/
theorem assembledLinesDecode : Obligations.AssembledLinesDecode := by
  refine ⟨fun nApp key => decode_of_assemble (assemble_resolve_name nApp key) id,
    fun nApp a b => decode_of_assemble (assemble_encNec nApp a b) fun _ => rfl, fun nApp a b c d => ?_⟩
  have hsirc20 := decode_of_assemble (assemble_encSirc20 nApp a b c d) fun _ => rfl
  have hsirc := decode_of_assemble (assemble_encSirc nApp a b c d) fun _ => rfl
  split_ifs at hsirc20 hsirc ⊢ <;> exact ⟨hsirc20, hsirc⟩

/-- Settles O53: the raw forms write their words, and any other line the encoding of a well-formed instruction. -/
theorem onlyRawFormsWriteReservedWords : Obligations.OnlyRawFormsWriteReservedWords := by
  refine ⟨fun nApp c => ?_, assemble_req, fun _ _ _ h => assemble_decodes_or_raw h⟩
  rw [assemble_resolve_code]
  split
  · refine ⟨_, rfl, ?_, rfl, rfl, rfl, rfl⟩
    have hop : (1 : BitVec 4).toNat = 1 := rfl
    rw [reqWord_toNat, BitVec.toNat_ofInt, hop]
    omega
  · rfl

end Sys2Proof
end

section
/-! # The family of the pulse pattern: completing, reading and handing over

Proofs of the statements about patterns and completion (40_pulse_pattern.md). Finish faults exactly where its pattern
does not fit; a request writes what its reads decide; and what is handed over lies below RES_LEN, where the invariant
speaks. -/

namespace Sys2Proof

open Says

namespace Machine

/-! ## When Finish faults -/

/-- Where the length fits RES_LEN, a pattern fits exactly when it is valid (R104, R106). -/
theorem fits_iff {n : Nat} {p : Pattern} (hlen : p.length < 2 ^ 32) :
    Fits n p ↔ 1 ≤ p.length ∧ p.length ≤ n ∧ ∀ d ∈ p, 1 ≤ d ∧ d ≤ 2 ^ 32 - 1 := by
  rw [Fits, and_iff_left hlen, validPattern_iff]
  simp only [Nat.le_sub_one_iff_lt (show 0 < 2 ^ 32 by decide)]

theorem finish_eq_fault_iff {st : Status} {f : Word} {p : Pattern} {s : State} :
    finish st f p s = .fault .invalidPattern ↔ st = .ok ∧ ¬ Fits s.config.maxPatternLen p := by
  unfold finish Fits
  split
  · rename_i hinvalid
    exact iff_of_true rfl hinvalid
  · rename_i hvalid
    exact iff_of_false nofun hvalid

/-- Finish has no other fault, and refuses nothing. -/
theorem finish_of_not_fault {st : Status} {f : Word} {p : Pattern} {s : State}
    (h : finish st f p s ≠ .fault .invalidPattern) : finish st f p s = .next (s.writeResults st f p) :=
  if_neg (mt finish_eq_fault_iff.mpr h)

/-- Writing the results leaves everything else as it was (R20, R106). -/
theorem State.writeResults_onlyResultsChanged (s : State) (st : Status) (f : Word) (p : Pattern) :
    OnlyResultsChanged s (s.writeResults st f p) :=
  ⟨rfl, rfl, rfl, rfl, rfl, rfl, rfl⟩

/-! ## What a request reads -/

/-- The states agree on the configuration, on REQ and on the operand registers that a request with this REQ reads
(R74). -/
structure SameReads (s u : State) : Prop where
  config : s.config = u.config
  req : s.req = u.req
  opa_opb : s.req.value.toNat = 2 ∨ s.req.value.toNat = 3 ∨ s.req.value.toNat = 4 → s.opa = u.opa ∧ s.opb = u.opb
  opc_opd : s.req.value.toNat = 3 ∨ s.req.value.toNat = 4 → s.opc = u.opc ∧ s.opd = u.opd

theorem SameReads.symm {s u : State} (h : SameReads s u) : SameReads u s where
  config := h.config.symm
  req := h.req.symm
  opa_opb hreq := (h.opa_opb (h.req ▸ hreq)).imp Eq.symm Eq.symm
  opc_opd hreq := (h.opc_opd (h.req ▸ hreq)).imp Eq.symm Eq.symm

/-- The other state's words carry the same instruction, and hold the same in every register it reads. -/
theorem SameReads.carries {s u : State} (h : SameReads s u) {i : Instr} (hi : s.request.Carries i) :
    u.request.Carries i ∧ ∀ p ∈ operandPorts i, s.port p = u.port p := by
  have all_four (h34 : s.req.value.toNat = 3 ∨ s.req.value.toNat = 4) :
      s.opa = u.opa ∧ s.opb = u.opb ∧ s.opc = u.opc ∧ s.opd = u.opd :=
    and_assoc.mp ⟨h.opa_opb (.inr h34), h.opc_opd h34⟩
  cases i with
  | resolve key => simpa [Request.Carries, State.request, operandPorts, h.req] using hi
  | encNec a b =>
    obtain ⟨hword, rfl, rfl⟩ := hi
    simpa [Request.Carries, State.request, operandPorts, State.port, h.req, h.opa_opb (.inl hword)] using hword
  | encSirc20 a b c d =>
    obtain ⟨hword, rfl, rfl, rfl, rfl⟩ := hi
    simpa [Request.Carries, State.request, operandPorts, State.port, h.req, all_four (.inl hword)] using hword
  | encSirc a b c d =>
    obtain ⟨hword, rfl, rfl, rfl, rfl⟩ := hi
    simpa [Request.Carries, State.request, operandPorts, State.port, h.req, all_four (.inr hword)] using hword

theorem SameReads.decode_ok {s u : State} (h : SameReads s u) {i : Instr}
    (hd : decode s.config.nApp s.request = .ok i) : decode u.config.nApp u.request = .ok i := by
  obtain ⟨hwf, hcarries⟩ := decode_eq_ok_iff.mp hd
  exact decode_eq_ok_iff.mpr ⟨h.config ▸ hwf, (h.carries hcarries).1⟩

/-- REQ is reserved in both states or in neither: the states would agree on an instruction. -/
theorem SameReads.decode_error {s u : State} (h : SameReads s u) {why : Reserved}
    (hd : decode s.config.nApp s.request = .error why) : ∃ why', decode u.config.nApp u.request = .error why' := by
  cases hu : decode u.config.nApp u.request with
  | error why' => exact ⟨why', rfl⟩
  | ok i => exact absurd (hd.symm.trans (h.symm.decode_ok hu)) nofun

/-- Everything a request can do when it goes on, by what its words decode to (R54, R81, R107). -/
theorem issue_next_cases {s t : State} (h : issue s = .next t) : s.req.written = true ∧
    ((∃ why, decode s.config.nApp s.request = .error why ∧ t = s.writeResults .reservedEncoding 0 []) ∨
      ∃ i, decode s.config.nApp s.request = .ok i ∧ (∀ p ∈ operandPorts i, (s.port p).written = true) ∧
        exec i s = .next t) := by
  unfold issue at h
  split at h
  · cases h
  · rename_i why hfetch
    obtain ⟨hw, hd, -⟩ := fetch_ok hfetch
    exact ⟨hw, .inl ⟨why, hd, (finish_next h).1⟩⟩
  · rename_i i hfetch
    obtain ⟨hw, hd, hports⟩ := fetch_ok hfetch
    exact ⟨hw, .inr ⟨i, hd, hports i rfl, h⟩⟩

/-- A written REQ that is reserved raises, whatever the operand registers are (R81, R206). -/
theorem issue_of_decode_error {s : State} {why : Reserved} (hw : s.req.written = true)
    (hd : decode s.config.nApp s.request = .error why) :
    issue s = .next (s.writeResults .reservedEncoding 0 []) := by
  refine issue_reserved (why := why) ?_
  rw [fetch_eq hw fun i hi => absurd (hd.symm.trans hi) nofun, hd]

/-! ## What is handed over -/

theorem State.handOff_eq_some {s : State} {f : Word} {p : List Word} : s.handOff = some (f, p) ↔
    s.resStatus = Status.ok.code ∧ s.resCarrier ≠ 0 ∧ f = s.resCarrier ∧ p = s.pat.take s.resLen.toNat := by
  simp only [State.handOff, Option.ite_none_right_eq_some, Option.some.injEq, Prod.mk.injEq, and_assoc,
    eq_comm (b := f), eq_comm (b := p)]

/-- The elements handed over are the elements of PAT below RES_LEN. -/
theorem getD_take {l : List Word} {n i : Nat} (h : i < n) : (l.take n).getD i 0 = l.getD i 0 := by
  rw [List.getD_eq_getElem?_getD, List.getElem?_take_of_lt h, ← List.getD_eq_getElem?_getD]

end Machine

/-! ## The obligations -/

open Machine

/-- Settles O11: under a well-formed configuration an instruction writes one completion. -/
theorem everyInstructionCompletes : Obligations.EveryInstructionCompletes := by
  intro i s hwf
  obtain ⟨st, f, p, -, -, hexec⟩ := exec_writes hwf i
  exact ⟨_, hexec s rfl, s.writeResults_onlyResultsChanged st f p⟩

/-- Settles O33: REQ is reserved in both states, or both run the same instruction, which looks at the configuration
alone. -/
theorem requestDependsOnlyOnWhatItReads : Obligations.RequestDependsOnlyOnWhatItReads := by
  intro s u t hconfig hreq hab hcd h
  have hreads : SameReads s u := ⟨hconfig, hreq, hab, hcd⟩
  obtain ⟨hw, ⟨why, hd, rfl⟩ | ⟨i, hd, hports, hexec⟩⟩ := issue_next_cases h
  · obtain ⟨why', hu⟩ := hreads.decode_error hd
    exact ⟨_, issue_of_decode_error (hreq ▸ hw) hu, State.writeResults_sameResults hconfig _ _ _⟩
  · obtain ⟨-, hsame⟩ := hreads.carries (decode_eq_ok_iff.mp hd).2
    obtain ⟨st, f, p, rfl, hexec_u⟩ := exec_congr hexec
    have hissue : issue u = exec i u :=
      issue_of_decode (hreq ▸ hw) (hreads.decode_ok hd) fun q hq => hsame q hq ▸ hports q hq
    exact ⟨_, hissue.trans (hexec_u u hconfig.symm), State.writeResults_sameResults hconfig st f p⟩

/-- Settles O47: the pair is read off below RES_LEN, where the invariant makes every duration positive. -/
theorem handedOverPairIsValid : Obligations.HandedOverPairIsValid := by
  rintro s f p ⟨-, -, hpat, hok, -, -⟩ h
  obtain ⟨hstatus, hcarrier, rfl, rfl⟩ := State.handOff_eq_some.mp h
  obtain ⟨hpos, hle, hne⟩ := hok hstatus
  have hlen : (s.pat.take s.resLen.toNat).length = s.resLen.toNat := by
    rw [List.length_take, hpat, min_eq_left hle]
  refine ⟨rfl, hcarrier, hlen, by omega, by omega, fun d hd => ?_, fun i hi => ?_⟩
  · obtain ⟨i, hi, rfl⟩ := List.mem_iff_getElem.mp hd
    rw [← List.getD_eq_getElem _ 0 hi, getD_take (by omega)]
    exact hne i (by omega)
  · rw [getD_take (by omega)]
    exact if_pos (by omega)

/-- Settles O31: Finish faults for OK with a pattern that does not fit, and any other Finish writes the results. -/
theorem finishFaultsExactlyOnInvalid : Obligations.FinishFaultsExactlyOnInvalid := by
  intro st f p s hlen
  rw [← fits_iff hlen]
  exact ⟨finish_eq_fault_iff, fun h => ⟨_, finish_of_not_fault h, s.writeResults_onlyResultsChanged st f p⟩⟩

end Sys2Proof
end

section
/-! # The family of the NEC encoder: what ENC.NEC hands the host

Proofs of the statements about ENC.NEC (41_nec.md). The frame is read off its 32 bits, bit n in the space at 3 + 2n; its
duration depends on how many of them are set, and a byte beside its complement always sets eight. -/

namespace Sys2Proof

open Says

namespace Machine

/-! ## What the host reads after a completion with OK -/

theorem readResult_pat_writeResults_ok {s : State} {f : Word} {p : Pattern} {i : Nat}
    (hi : i < s.config.maxPatternLen) :
    (s.writeResults .ok f p).readResult (.pat i) = some (BitVec.ofNat 32 (p.getD i 0)) := by
  simp only [State.readResult, State.patRead, State.writeResults_config, State.writeResults_pat, if_pos hi, if_true,
    patBuffer_getD]

/-- A pattern that fits is read back element for element, and 0 from its length on (R25, R106). -/
theorem resultIs_writeResults_ok {s : State} {f : Word} {p : Pattern} {elem : Nat → Nat}
    (hf : Fits s.config.maxPatternLen p) (helem : ∀ i, i < p.length → p.getD i 0 = elem i) :
    ResultIs (s.writeResults .ok f p) 1 f p.length elem := by
  refine ⟨⟨_, rfl, rfl⟩, rfl, ⟨_, rfl, Nat.mod_eq_of_lt hf.2⟩, fun i hi => ⟨_, readResult_pat_writeResults_ok hi, ?_⟩⟩
  split
  · rename_i hlt
    obtain ⟨-, -, hvalid⟩ := validPattern_iff.mp hf.1
    rw [BitVec.toNat_ofNat, ← helem i hlt, List.getD_eq_getElem p 0 hlt]
    exact Nat.mod_eq_of_lt (hvalid p[i] (List.getElem_mem hlt)).2
  · rename_i hge
    rw [List.getD_eq_default p 0 (not_lt.mp hge)]
    rfl

/-- PAT lasts as long as the pattern it holds: the padding is 0 (R106). -/
theorem sum_patBuffer {n : Nat} {p : Pattern} (hf : Fits n p) : ((patBuffer n p).map BitVec.toNat).sum = p.sum := by
  obtain ⟨-, hle, hvalid⟩ := validPattern_iff.mp hf.1
  have hp : p.map (BitVec.toNat ∘ BitVec.ofNat 32) = p :=
    (List.map_congr_left fun d hd => Nat.mod_eq_of_lt (hvalid d hd).2).trans (List.map_id p)
  simp [patBuffer_eq_append hle, hp]

/-! ## Fields and their bits -/

theorem low8_toNat (w : Word) : (low8 w).toNat = w.toNat % 256 := by
  simp [low8, BitVec.extractLsb'_toNat]

/-- Weighting each bit of a number by its place gives the number back (R129). -/
theorem sum_testBit (x n : Nat) : ((List.range n).map fun i => if x.testBit i then 2 ^ i else 0).sum = x % 2 ^ n := by
  induction n with
  | zero => simp [Nat.mod_one]
  | succ n ih =>
    rw [List.range_succ, List.map_append, List.sum_append, ih, Nat.mod_pow_succ]
    rcases Nat.mod_two_eq_zero_or_one (x / 2 ^ n) with h | h <;> simp [Nat.testBit_eq_decide_div_mod_eq, h]

theorem fieldBits_not {n w : Nat} (v : BitVec n) (hw : w ≤ n) : fieldBits (~~~v) w = (fieldBits v w).map not := by
  refine List.ext_getElem (by simp) fun i hi _ => ?_
  have hlt : i < n := (show i < w by simpa using hi).trans_le hw
  simp [bitOf, hlt]

/-- A field and its complement together set each bit once (R130). -/
theorem count_fieldBits_add_not {n w : Nat} (v : BitVec n) (hw : w ≤ n) :
    (fieldBits v w).count true + (fieldBits (~~~v) w).count true = w := by
  have hnot : ((fieldBits v w).map not).count true = (fieldBits v w).count false :=
    List.count_map_of_injective _ not Bool.not_injective false
  rw [fieldBits_not v hw, hnot, List.count_true_add_count_false, fieldBits_length]

/-! ## The bits of a NEC frame -/

/-- Data bit n of a NEC frame for address a and command c below 256: bit n mod 8 of byte n / 8 (R122). -/
def necBitOf (a c n : Nat) : Bool := (necByteOf a c (n / 8)).testBit (n % 8)

theorem necBitOf_byte {a c j i : Nat} (hi : i < 8) : necBitOf a c (8 * j + i) = (necByteOf a c j).testBit i := by
  rw [necBitOf, show (8 * j + i) / 8 = j by omega, show (8 * j + i) % 8 = i by omega]

theorem necByteOf_lt {a c j : Nat} (ha : a < 256) (hc : c < 256) : necByteOf a c j < 256 := by
  unfold necByteOf
  split <;> omega

theorem necBytes_getElem_toNat (a c : BitVec 8) (j : Nat) (hj : j < (necBytes a c).length) :
    (necBytes a c)[j].toNat = necByteOf a.toNat c.toNat j := by
  have hj' : j < 4 := hj
  interval_cases j <;> simp [necBytes, necByteOf, BitVec.toNat_not]

/-- The model's bits are the bits of R122. -/
theorem necBits_eq_map (a c : BitVec 8) : necBits a c = (List.range 32).map (necBitOf a.toNat c.toNat) := by
  refine List.ext_getElem (by simp) fun n hn _ => ?_
  obtain ⟨j, i, hi, rfl⟩ : ∃ j i, i < 8 ∧ n = 8 * j + i := ⟨n / 8, n % 8, by omega, by omega⟩
  have hj : j < (necBytes a c).length := by
    simp only [necBits_length] at hn
    simp only [necBytes, List.length_cons, List.length_nil]
    omega
  rw [necBits_getElem a c j i hj hi hn, List.getElem_map, List.getElem_range, necBitOf_byte hi,
    ← necBytes_getElem_toNat a c j hj, BitVec.testBit_toNat, bitOf]

/-- Sixteen of the 32 bits are set, eight by each byte and its complement, and so sixteen are not (R130). -/
theorem necBits_count (a c : BitVec 8) (b : Bool) : (necBits a c).count b = 16 := by
  have hset : (necBits a c).count true = 16 := by
    have ha := count_fieldBits_add_not a (le_refl 8)
    have hc := count_fieldBits_add_not c (le_refl 8)
    simp only [necBits, necBytes, List.flatMap_cons, List.flatMap_nil, List.count_append, List.count_nil]
    omega
  cases b with
  | true => exact hset
  | false =>
    have htotal := List.count_true_add_count_false (necBits a c)
    rw [necBits_length] at htotal
    omega

/-! ## The elements of a NEC frame -/

theorem necElem_mark (a c n : Nat) : necElem a c (2 + 2 * n) = 560 := by
  simp [necElem, show 2 + 2 * n ≠ 1 by omega]

theorem necElem_space (a c n : Nat) : necElem a c (3 + 2 * n) = if necBitOf a c n then 1690 else 560 := by
  rw [necElem, if_neg (by omega), if_neg (by omega), if_neg (by omega), necBitOf,
    show (3 + 2 * n - 3) / 16 = n / 8 by omega, show (3 + 2 * n - 3) / 2 % 8 = n % 8 by omega]

/-- Every element of the frame is the one R121 to R124 give it: the header, a mark or a space of a bit, the stop mark. -/
theorem necFrame_getD (a c : BitVec 8) {i : Nat} (hi : i < 67) :
    (necFrame a c).getD i 0 = necElem a.toNat c.toNat i := by
  obtain ⟨h0, h1, h66⟩ := necFrame_ends a c
  obtain rfl | rfl | rfl | ⟨n, hn, rfl | rfl⟩ :
      i = 0 ∨ i = 1 ∨ i = 66 ∨ ∃ n, n < 32 ∧ (i = 2 + 2 * n ∨ i = 3 + 2 * n) := by
    by_cases hlow : i < 2
    · omega
    · by_cases hstop : i = 66
      · exact .inr (.inr (.inl hstop))
      · exact .inr (.inr (.inr ⟨(i - 2) / 2, by omega, by omega⟩))
  · exact h0
  · exact h1
  · exact h66
  · rw [(necFrame_bit a c n (by simpa using hn)).1, necElem_mark]
  · rw [(necFrame_bit a c n (by simpa using hn)).2, necElem_space]
    simp [necBits_eq_map]

theorem sum_flatMap_necBit (bits : List Bool) :
    (bits.flatMap necBit).sum = 1120 * bits.length + 1130 * bits.count true := by
  induction bits with
  | nil => rfl
  | cons b bits ih =>
    cases b <;> simp [necBit, necBitMark, necOneSpace, necZeroSpace, ih] <;> omega

/-- The header, the stop mark and 32 bits of which sixteen are set (R130). -/
theorem necFrame_sum (a c : BitVec 8) : (necFrame a c).sum = 67980 := by
  simp only [necFrame_eq, List.sum_append, List.sum_cons, List.sum_nil, sum_flatMap_necBit, necBits_length,
    necBits_count, Nat.reduceMul, Nat.reduceAdd]

/-- The host reads bit n of the frame in the space at 3 + 2n (R123, R129). -/
theorem readResult_necSpace {s : State} (hmax : 67 ≤ s.config.maxPatternLen) (f : Word) (a c : BitVec 8) {n : Nat}
    (hn : n < 32) : (s.writeResults .ok f (necFrame a c)).readResult (.pat (3 + 2 * n)) =
      some (if necBitOf a.toNat c.toNat n then 1690 else 560) := by
  rw [readResult_pat_writeResults_ok (by omega), necFrame_getD a c (by omega), necElem_space]
  split <;> rfl

/-- Sixteen of the 32 data spaces the host reads carry a set bit, and sixteen a clear one (R130). -/
theorem countP_readResult_necSpace {s : State} (hmax : 67 ≤ s.config.maxPatternLen) (f : Word) (a c : BitVec 8)
    (b : Bool) : (List.range 32).countP (fun n => decide ((s.writeResults .ok f (necFrame a c)).readResult
      (.pat (3 + 2 * n)) = some (if b then 1690 else 560))) = 16 := by
  rw [← necBits_count a c b, necBits_eq_map, List.count_eq_countP, List.countP_map]
  refine List.countP_congr fun n hn => ?_
  rw [readResult_necSpace hmax f a c (List.mem_range.mp hn)]
  cases b <;> simp

end Machine

/-! ## The obligations -/

open Machine

/-- Settles O12: the completion writes the frame, whose elements are those of R121 to R124. -/
theorem encNecResult : Obligations.EncNecResult := by
  intro opa opb s hmax
  have hfits : Fits s.config.maxPatternLen (necFrame (low8 opa) (low8 opb)) := necFrame_fits _ _ (by omega)
  refine ⟨_, exec_encNec (by omega) opa opb, s.writeResults_onlyResultsChanged _ _ _, ?_⟩
  rw [← low8_toNat opa, ← low8_toNat opb, ← necFrame_length (low8 opa) (low8 opb)]
  exact resultIs_writeResults_ok hfits fun i hi => necFrame_getD _ _ (necFrame_length _ _ ▸ hi)

/-- Settles O13: the space at 3 + 16j + 2i holds bit i of byte j, and the byte is the sum of its weighted bits. -/
theorem necDecodesBack : Obligations.NecDecodesBack := by
  intro opa opb s hmax
  refine ⟨_, exec_encNec (by omega) opa opb, fun j hj => ?_⟩
  rw [← low8_toNat opa, ← low8_toNat opb]
  generalize hbyte : necByteOf (low8 opa).toNat (low8 opb).toNat j = byte
  have hlt : byte < 2 ^ 8 := hbyte ▸ necByteOf_lt (low8 opa).isLt (low8 opb).isLt
  calc
    _ = ((List.range 8).map fun i => if byte.testBit i then 2 ^ i else 0).sum := by
      refine congrArg List.sum (List.map_congr_left fun i hi => ?_)
      have hi8 : i < 8 := List.mem_range.mp hi
      rw [show 3 + 16 * j + 2 * i = 3 + 2 * (8 * j + i) by omega, readResult_necSpace (by omega) _ _ _ (by omega),
        necBitOf_byte hi8, hbyte]
      cases byte.testBit i <;> rfl
    _ = byte % 2 ^ 8 := sum_testBit byte 8
    _ = byte := Nat.mod_eq_of_lt hlt

/-- Settles O14: sixteen of the 32 bits are set and sixteen are not, and the duration depends on no more than that. -/
theorem necDurationFixed : Obligations.NecDurationFixed := by
  intro opa opb s hmax
  have hmax' : 67 ≤ s.config.maxPatternLen := by omega
  refine ⟨_, exec_encNec hmax' opa opb, countP_readResult_necSpace hmax' 0 _ _ true,
    countP_readResult_necSpace hmax' 0 _ _ false, ?_⟩
  rw [State.writeResults_pat, if_pos rfl, sum_patBuffer (necFrame_fits _ _ hmax'), necFrame_sum]

end Sys2Proof
end

section
/-! # The family of the SIRC encoders: what ENC.SIRC20 and ENC.SIRC hand the host

Proofs of the statements about the two SIRC encoders (42_sirc.md). Both frames are the start bit and a list of data bits,
bit n in the mark at 2 + 2n; they differ in which bits those are, and so every fact about elements is proved once, for
any list of bits. -/

namespace Sys2Proof

open Says

namespace Machine

/-! ## Operands -/

theorem low7_toNat (w : Word) : (low7 w).toNat = w.toNat % 2 ^ 7 := by
  simp [low7, BitVec.extractLsb'_toNat]

theorem low5_toNat (w : Word) : (low5 w).toNat = w.toNat % 2 ^ 5 := by
  simp [low5, BitVec.extractLsb'_toNat]

/-- Masking to 5 bits, and widening again, is an AND with 0x1F (R145, R158). -/
theorem and_eq_low5 (w : Word) : w &&& 0x1F = (low5 w).setWidth 32 := by
  apply BitVec.eq_of_toNat_eq
  rw [BitVec.toNat_and, BitVec.toNat_setWidth_of_le (by decide), low5_toNat]
  exact Nat.and_two_pow_sub_one_eq_mod _ 5

theorem and_eq_low8 (w : Word) : w &&& 0xFF = (low8 w).setWidth 32 := by
  apply BitVec.eq_of_toNat_eq
  rw [BitVec.toNat_and, BitVec.toNat_setWidth_of_le (by decide), low8_toNat]
  exact Nat.and_two_pow_sub_one_eq_mod _ 8

theorem bitCount_eq_toInt (w : Word) : bitCount w = w.toInt := sint32_eq_toInt w

theorem unitTimeInvalid_eq_true {t : Nat} : unitTimeInvalid t = true ↔ t = 0 ∨ 0x3FFFFFFF < t := by
  rw [← Bool.not_eq_false, unitTimeInvalid_eq_false]
  omega

theorem bitCountsInvalid_eq_true {total ncmd : Int} :
    bitCountsInvalid total ncmd = true ↔ total - ncmd < 0 ∨ ncmd < 0 ∨ 64 < total := by
  rw [← Bool.not_eq_false, bitCountsInvalid_eq_false]
  omega

/-- EncSirc with legal counts. -/
theorem encSircPattern_ok {opc opd : Word} (h : bitCountsInvalid (bitCount opc) (bitCount opd) = false)
    (opa opb : Word) : encSircPattern opa opb opc opd =
      .ok (sircFrame opa opb (bitCount opd).toNat (bitCount opc - bitCount opd).toNat) := by
  simp [encSircPattern, h]

/-! ## The data bits of a frame -/

/-- Two runs of numbered bits in a row are one run, the second counting on from the first. -/
theorem map_range_append (f g : Nat → Bool) (a b : Nat) :
    (List.range a).map f ++ (List.range b).map g =
      (List.range (a + b)).map fun n => if n < a then f n else g (n - a) := by
  rw [List.range_add, List.map_append, List.map_map]
  congr 1
  · exact List.map_congr_left fun n hn => (if_pos (List.mem_range.mp hn)).symm
  · exact List.map_congr_left fun n _ => by simp

/-- A field's bits, then another's, are the data bits of R154. -/
theorem fieldBits_append {m n : Nat} (u : BitVec m) (v : BitVec n) (a b : Nat) :
    fieldBits u a ++ fieldBits v b = (List.range (a + b)).map (sircBitOf u.toNat v.toNat a) :=
  map_range_append _ _ a b

/-- The frame carries the data bits of R154. -/
theorem sircFrame_eq_map (cmd addr : Word) (ncmd naddr : Nat) : sircFrame cmd addr ncmd naddr =
    sircBits 600 ((List.range (ncmd + naddr)).map (sircBitOf cmd.toNat addr.toNat ncmd)) := by
  rw [sircFrame_eq, fieldBits_append, sircGenUnit]

/-- The frame carries the data bits of R142. -/
theorem sirc20Frame_eq_map (t : Nat) (cmd : BitVec 7) (dev : BitVec 5) (ext : BitVec 8) :
    sirc20Frame t cmd dev ext = sircBits t ((List.range 20).map (sirc20Bit cmd.toNat dev.toNat ext.toNat)) := by
  rw [sirc20Frame_eq, List.append_assoc, fieldBits_append, fieldBits, map_range_append]
  refine congrArg (sircBits t) (List.map_congr_left fun n _ => ?_)
  have hlt : n - 7 < 5 ↔ n < 12 := by omega
  simp only [sirc20Bit, sircBitOf, hlt, Nat.sub_sub]
  rfl

/-- The address word of R158 holds the device address, then the extended address. -/
theorem fieldBits_sirc20Address (d e : Word) :
    fieldBits (d &&& (0x1F : Word) ||| (e &&& 0xFF) <<< 5) 13 = fieldBits (low5 d) 5 ++ fieldBits (low8 e) 8 := by
  rw [and_eq_low5, and_eq_low8]
  refine (List.map_congr_left fun i hi => ?_).trans (map_range_append _ _ 5 8).symm
  have hi32 : i < 32 := (List.mem_range.mp hi).trans (by decide)
  split
  · rename_i hlt
    simp [bitOf, hlt, hi32]
  · rename_i hge
    simp [bitOf, hge, hi32, BitVec.getLsbD_of_ge (low5 d) i (by omega)]

/-- A field's own low bits are the bits of the operand word (R145). -/
theorem fieldBits_low7 (w : Word) : fieldBits (low7 w) 7 = fieldBits w 7 :=
  List.map_congr_left fun i hi => by
    have hi7 : i < 7 := List.mem_range.mp hi
    simp [bitOf, low7, hi7]

/-! ## The elements of a frame -/

theorem sircElem_mark (t : Nat) (bit : Nat → Bool) (n : Nat) :
    sircElem t bit (2 + 2 * n) = if bit n then 2 * t else t := by
  simp [sircElem]

theorem sircElem_space (t : Nat) (bit : Nat → Bool) (n : Nat) : sircElem t bit (3 + 2 * n) = t := by
  rw [sircElem, if_neg (by omega), if_pos (by omega)]

/-- Every element of a frame is the one R141 and R143 give it: the start bit, or a mark or a space of a data bit. -/
theorem sircBits_getD {t m : Nat} {bit : Nat → Bool} {i : Nat} (hi : i < 2 + 2 * m) :
    (sircBits t ((List.range m).map bit)).getD i 0 = sircElem t bit i := by
  obtain rfl | rfl | ⟨n, hn, rfl | rfl⟩ :
      i = 0 ∨ i = 1 ∨ ∃ n, n < m ∧ (i = 2 + 2 * n ∨ i = 3 + 2 * n) := by
    by_cases hlow : i < 2
    · omega
    · exact .inr (.inr ⟨(i - 2) / 2, by omega, by omega⟩)
  · rfl
  · rfl
  · rw [(sircBits_bit t _ n (by simpa using hn)).1, sircElem_mark, List.getElem_map, List.getElem_range]
  · rw [(sircBits_bit t _ n (by simpa using hn)).2, sircElem_space]

/-! ## What the host reads -/

/-- The host reads a frame that fits element for element (R141, R143). -/
theorem resultIs_sircBits {s : State} {f : Word} {t m : Nat} {bit : Nat → Bool}
    (hf : Fits s.config.maxPatternLen (sircBits t ((List.range m).map bit))) :
    ResultIs (s.writeResults .ok f (sircBits t ((List.range m).map bit))) 1 f (2 + 2 * m) (sircElem t bit) := by
  have hlen : (sircBits t ((List.range m).map bit)).length = 2 + 2 * m := by simp
  rw [← hlen]
  exact resultIs_writeResults_ok hf fun i hi => sircBits_getD (hlen ▸ hi)

/-- The host reads data bit n in the mark at 2 + 2n (R143, R148). -/
theorem readResult_sircMark {s : State} {m : Nat} (hmax : 2 + 2 * m ≤ s.config.maxPatternLen) (f unit : Word)
    (bit : Nat → Bool) {n : Nat} (hn : n < m) :
    (s.writeResults .ok f (sircBits unit.toNat ((List.range m).map bit))).readResult (.pat (2 + 2 * n)) =
      some (if bit n then 2 * unit else unit) := by
  rw [readResult_pat_writeResults_ok (by omega), sircBits_getD (by omega), sircElem_mark]
  split <;> simp [BitVec.ofNat_mul]

/-- A mark of 2T is not a mark of T: T is not 0. -/
theorem ne_two_mul_self {unit : Word} (h : 1 ≤ unit.toNat) : unit ≠ 2 * unit := by
  bv_omega

/-- Weighting the marks of a field's bits by their places gives the field back (R148). -/
theorem sum_readResult_sircMark {s : State} {m : Nat} (hmax : 2 + 2 * m ≤ s.config.maxPatternLen) (f : Word)
    {unit : Word} (hunit : 1 ≤ unit.toNat) {bit : Nat → Bool} {first width field : Nat} (hle : first + width ≤ m)
    (hbit : ∀ i, i < width → bit (first + i) = field.testBit i) :
    ((List.range width).map fun i =>
      if (s.writeResults .ok f (sircBits unit.toNat ((List.range m).map bit))).readResult
        (.pat (2 + 2 * (first + i))) = some (2 * unit) then 2 ^ i else 0).sum = field % 2 ^ width := by
  rw [← sum_testBit]
  refine congrArg List.sum (List.map_congr_left fun i hi => ?_)
  have hlt : i < width := List.mem_range.mp hi
  rw [readResult_sircMark hmax f unit bit (by omega), hbit i hlt]
  cases field.testBit i with
  | true => simp
  | false => simpa using ne_two_mul_self hunit

/-- After an error the host reads its status, and 0 everywhere else (R200). -/
theorem errorIs_writeResults {st : Status} (hst : st ≠ .ok) (s : State) (f : Word) (p : Pattern) :
    ErrorIs (s.writeResults st f p) st.code.toNat :=
  errorIs_of_cleared (t := s.writeResults st f p) (by simp [hst]) (by simp [hst]) (by simp [hst])

/-- ENC.SIRC20 with a legal unit time completes with the data bits of its masked operands (R142, R145). -/
theorem exec_encSirc20_eq_map {s : State} (hmax : 42 ≤ s.config.maxPatternLen) {opd : Word} (h1 : 1 ≤ opd.toNat)
    (h2 : opd.toNat ≤ 0x3FFFFFFF) (opa opb opc : Word) : exec (.encSirc20 opa opb opc opd) s =
      .next (s.writeResults .ok 0 (sircBits opd.toNat ((List.range 20).map
        (sirc20Bit (opa.toNat % 2 ^ 7) (opb.toNat % 2 ^ 5) (opc.toNat % 2 ^ 8))))) := by
  simp only [exec_encSirc20 hmax (unitTimeInvalid_eq_false.mpr ⟨h1, h2⟩), sirc20Frame_eq_map, unitTime, low7_toNat,
    low5_toNat, low8_toNat, Nat.reducePow]

end Machine

/-! ## The obligations -/

open Machine

/-- Settles O15: the completion writes the frame of the masked fields, whose elements are those of R141 to R143. -/
theorem encSirc20Result : Obligations.EncSirc20Result := by
  intro opa opb opc opd s hmax h1 h2
  refine ⟨_, exec_encSirc20_eq_map (by omega) h1 h2 opa opb opc, s.writeResults_onlyResultsChanged _ _ _, ?_⟩
  exact resultIs_sircBits (sircBits_fits h1 h2 (by simp; omega) (by simp))

/-- Settles O17: the mark at 2 + 2n holds data bit n, and each field is the sum of its weighted bits. -/
theorem sirc20FieldsRecovered : Obligations.Sirc20FieldsRecovered := by
  intro opa opb opc opd s hmax h1 h2
  have hmax' : 2 + 2 * 20 ≤ s.config.maxPatternLen := by omega
  refine ⟨_, exec_encSirc20_eq_map (by omega) h1 h2 opa opb opc, fun n hn => ?_, ?_⟩
  · rw [readResult_sircMark hmax' 0 opd _ hn]
    split
    · exact .inl rfl
    · exact .inr rfl
  · rintro first width field (⟨rfl, rfl, rfl⟩ | ⟨rfl, rfl, rfl⟩ | ⟨rfl, rfl, rfl⟩)
    · rw [sum_readResult_sircMark hmax' 0 h1 (field := opa.toNat % 2 ^ 7) (by decide) fun i hi => ?_, Nat.mod_mod]
      rw [sirc20Bit, if_pos (by omega), Nat.zero_add]
    · rw [sum_readResult_sircMark hmax' 0 h1 (field := opb.toNat % 2 ^ 5) (by decide) fun i hi => ?_, Nat.mod_mod]
      rw [sirc20Bit, if_neg (by omega), if_pos (by omega), Nat.add_sub_cancel_left]
    · rw [sum_readResult_sircMark hmax' 0 h1 (field := opc.toNat % 2 ^ 8) (by decide) fun i hi => ?_, Nat.mod_mod]
      rw [sirc20Bit, if_neg (by omega), if_neg (by omega), Nat.add_sub_cancel_left]

/-- Settles O18: the completion writes the frame, whose elements are those of R154 at 600 microseconds. -/
theorem encSircResult : Obligations.EncSircResult := by
  intro opa opb opc opd s hmax h0 hle h64
  have hvalid : bitCountsInvalid (bitCount opc) (bitCount opd) = false := by
    rw [bitCount_eq_toInt, bitCount_eq_toInt]
    exact bitCountsInvalid_eq_false.mpr ⟨h0, hle, h64⟩
  have hfits := sircFrame_fits hvalid hmax opa opb
  have hexec := exec_encSirc hmax hvalid opa opb
  have htotal : opd.toInt.toNat + (opc.toInt - opd.toInt).toNat = opc.toInt.toNat := by omega
  rw [bitCount_eq_toInt, bitCount_eq_toInt, sircFrame_eq_map, htotal] at hfits hexec
  exact ⟨_, hexec, s.writeResults_onlyResultsChanged _ _ _, resultIs_sircBits hfits⟩

/-- Settles O21: the two patterns carry the same bits at the same unit time, and both requests end in one completion. -/
theorem sirc20IsSircAtTwenty : Obligations.Sirc20IsSircAtTwenty := by
  intro c d e s
  have hpattern :
      encSircPattern c (d &&& (0x1F : Word) ||| (e &&& 0xFF) <<< 5) 20 7 = encSirc20Pattern c d e 600 := by
    have hunit : unitTime 600 = sircGenUnit := rfl
    have hcmd : (bitCount 7).toNat = 7 := by decide
    have haddr : (bitCount 20 - bitCount 7).toNat = 13 := by decide
    rw [encSircPattern_ok (by decide), encSirc20Pattern_ok (by decide), hunit, hcmd, haddr, sircFrame_eq,
      sirc20Frame_eq, fieldBits_sirc20Address, fieldBits_low7, List.append_assoc]
  -- The statement's 0x1F is the cast of a Nat, equal to the word by unfolding.
  exact congrArg (complete 0 · s) hpattern

/-- Settles O16: a unit time out of its range raises. -/
theorem encSirc20BadUnitTime : Obligations.EncSirc20BadUnitTime :=
  fun opa opb opc _ s h => ⟨_, exec_encSirc20_invalid (unitTimeInvalid_eq_true.mpr h) opa opb opc s,
    s.writeResults_onlyResultsChanged _ _ _, errorIs_writeResults (by decide) s _ _⟩

/-- Settles O19: counts that are not legal raise. -/
theorem encSircBadCounts : Obligations.EncSircBadCounts := by
  intro opa opb opc opd s h
  rw [← bitCount_eq_toInt, ← bitCount_eq_toInt] at h
  exact ⟨_, exec_encSirc_invalid (bitCountsInvalid_eq_true.mpr h) opa opb s, s.writeResults_onlyResultsChanged _ _ _,
    errorIs_writeResults (by decide) s _ _⟩

/-- Settles O20: 3 - 7 is negative, so this is a case of O19. -/
theorem sircThreeBitsOfSevenFails : Obligations.SircThreeBitsOfSevenFails := by
  intro command address s
  obtain ⟨t, hexec, -, herror⟩ := encSircBadCounts command address 3 7 s (by decide)
  exact ⟨t, hexec, herror⟩

end Sys2Proof
end

section
/-! # The family of the command mapper: what RESOLVE gives for each entry, and what setting a slot changes

Proofs of the statements about RESOLVE and the table (43_mapper.md). For each tag the completion is known from the laws;
what the host reads of it is what it reads of the encoders' frames, or the recording itself. -/

namespace Sys2Proof

open Says

/-! ## Setting a slot -/

/-- A slot below every listed code is EMPTY (R31). -/
theorem Table.lookup_of_forall_lt {t : Table} {k : KeyCode} (h : ∀ x ∈ t, k.toNat < x.1.toNat) :
    t.lookup k = .empty := by
  by_contra hne
  exact lt_irrefl _ (h _ (Table.mem_of_lookup hne))

/-- Listing an entry in front of a table whose slot was EMPTY sets that slot; an EMPTY one is set by listing nothing. -/
theorem Table.lookup_ite_cons {t : Table} {k : KeyCode} (h : t.lookup k = .empty) (e : Entry) (k' : KeyCode) :
    Table.lookup (if e = .empty then t else (k, e) :: t) k' = if k' = k then e else t.lookup k' := by
  by_cases hk : k' = k
  · subst hk
    split
    · rename_i he
      rw [if_pos rfl, h, he]
    · rw [Table.lookup_cons, if_pos rfl]
  · rw [if_neg hk]
    split
    · rfl
    · rw [Table.lookup_cons, if_neg (Ne.symm hk)]

/-- In a canonical table, the slot set reads as its entry and every other slot as before. -/
theorem Table.lookup_set {t : Table} (hc : t.canonical = true) (k : KeyCode) (e : Entry) (k' : KeyCode) :
    (t.set k e).lookup k' = if k' = k then e else t.lookup k' := by
  induction t with
  | nil => exact Table.lookup_ite_cons (Table.lookup_nil k) e k'
  | cons x t ih =>
    obtain ⟨k₀, e₀⟩ := x
    obtain ⟨-, hlt, hc'⟩ := Table.canonical_cons.mp hc
    unfold Table.set
    split
    case isTrue hbelow =>
      refine Table.lookup_ite_cons (Table.lookup_of_forall_lt ?_) e k'
      exact List.forall_mem_cons.mpr ⟨hbelow, fun x hx => hbelow.trans (hlt x hx)⟩
    case isFalse =>
      split
      case isTrue hhead =>
        subst hhead
        rw [Table.lookup_ite_cons (Table.lookup_of_forall_lt hlt), Table.lookup_cons]
        split
        · rfl
        · rename_i hne
          rw [if_neg (Ne.symm hne)]
      case isFalse hhead =>
        rw [Table.lookup_cons, Table.lookup_cons, ih hc']
        by_cases hk : k₀ = k'
        · rw [if_pos hk, if_pos hk, if_neg (by rintro rfl; exact hhead hk.symm)]
        · rw [if_neg hk, if_neg hk]

namespace Machine

/-! ## What the host reads of a frame or a recording -/

theorem resultIs_necFrame {s : State} (hmax : 67 ≤ s.config.maxPatternLen) (f : Word) (a c : BitVec 8) :
    ResultIs (s.writeResults .ok f (necFrame a c)) 1 f 67 (necElem a.toNat c.toNat) := by
  rw [← necFrame_length a c]
  exact resultIs_writeResults_ok (necFrame_fits a c hmax) fun i hi => necFrame_getD a c (necFrame_length a c ▸ hi)

/-- Where CLEN counts the recording, as a legal entry's does, the pattern is the whole recording (R30, R175). -/
theorem capturedPattern_eq_map {clen : Word} {cdur : List Word} (h : cdur.length = clen.toNat) :
    capturedPattern clen cdur = cdur.map BitVec.toNat := by
  rw [capturedPattern, ← h, List.take_length]

theorem resultIs_captured {s : State} (f : Word) {clen : Word} {cdur : List Word} (hlen : cdur.length = clen.toNat)
    (hf : Fits s.config.maxPatternLen (capturedPattern clen cdur)) :
    ResultIs (s.writeResults .ok f (capturedPattern clen cdur)) 1 f clen.toNat (fun i => (cdur.getD i 0).toNat) := by
  rw [capturedPattern_eq_map hlen] at hf ⊢
  rw [← hlen, ← List.length_map (f := BitVec.toNat)]
  exact resultIs_writeResults_ok hf fun i _ => List.getD_map cdur 0 BitVec.toNat

end Machine

/-! ## The obligations -/

open Machine

/-- Settles O23: the completion writes the NEC frame of the entry's fields, and pairs the entry's carrier. -/
theorem resolveNecEntry : Obligations.ResolveNecEntry := by
  refine ⟨fun key s addr cmd carrier hmax hentry => ?_, fun _ _ => rfl⟩
  exact ⟨_, exec_resolve_nec (by omega) hentry, s.writeResults_onlyResultsChanged _ _ _,
    resultIs_necFrame (by omega) carrier addr cmd⟩

/-- Settles O24: the completion writes the SIRC-20 frame of the entry's fields, and pairs the entry's carrier. -/
theorem resolveSircEntry : Obligations.ResolveSircEntry := by
  intro key s cmd dev ext unit carrier hmax hentry h1 h2
  have hunit : unitTimeInvalid unit.toNat = false := unitTimeInvalid_eq_false.mpr ⟨h1, h2⟩
  have hfits : Fits s.config.maxPatternLen (sirc20Frame unit.toNat cmd dev ext) :=
    sirc20Frame_fits hunit (by omega) cmd dev ext
  have hexec := exec_resolve_sirc (by omega) hunit hentry
  rw [sirc20Frame_eq_map] at hfits hexec
  exact ⟨_, hexec, s.writeResults_onlyResultsChanged _ _ _, resultIs_sircBits hfits⟩

/-- Settles O26: a legal recording has CLEN elements and fits the buffer, and is written as it is. -/
theorem resolveCapturedEntry : Obligations.ResolveCapturedEntry := by
  intro key s clen cdur carrier hwf hentry
  have hentryWf := Config.wf_lookup hwf key.code
  rw [hentry] at hentryWf
  have hfits := capturedPattern_fits hentryWf
  obtain ⟨-, -, hlen, -, -⟩ := Entry.wf_iff_legal.mp hentryWf
  exact ⟨_, exec_resolve_captured hfits hentry, s.writeResults_onlyResultsChanged _ _ _,
    resultIs_captured carrier hlen hfits⟩

/-- Settles O36: neither the first RESOLVE nor the run changes the configuration, and an instruction writes the same
completion in every state with one configuration. -/
theorem resolveDeterministicAcrossRuns : Obligations.ResolveDeterministicAcrossRuns := by
  intro n key s t u h hrun
  obtain ⟨st, f, p, rfl, hexec⟩ := exec_congr h
  have hconfig : u.config = s.config := by
    rw [run_config hrun, State.writeResults_config]
  exact ⟨_, hexec u hconfig, State.writeResults_sameResults hconfig.symm st f p⟩

/-- Settles O49: by induction along the table, whose codes rise. -/
theorem tableSetChangesOneSlot : Obligations.TableSetChangesOneSlot :=
  fun _ k e hc => ⟨Table.set_canonical hc k e, Table.lookup_set hc k e⟩

/-- Settles O22: an EMPTY slot raises, and what raises leaves nothing to hand over. -/
theorem resolveEmptySlot : Obligations.ResolveEmptySlot := by
  intro key s hentry
  refine ⟨_, exec_resolve_empty hentry, s.writeResults_onlyResultsChanged _ _ _, errorIs_writeResults (by decide) s _ _,
    Option.not_isSome_iff_eq_none.mp ?_⟩
  simp [State.handOff_writeResults_isSome]

/-- Settles O25: a unit time out of its range raises, whether a request or an entry gives it. -/
theorem resolveSircEntryBadUnit : Obligations.ResolveSircEntryBadUnit :=
  fun _ s _ _ _ _ _ hentry hunit => ⟨_, exec_resolve_sirc_invalid (unitTimeInvalid_eq_true.mpr hunit) hentry,
    s.writeResults_onlyResultsChanged _ _ _, errorIs_writeResults (by decide) s _ _⟩

end Sys2Proof
end

section
/-! # The family of the exceptions: which error an instruction ends with, and what an error leaves alone

Proofs of the statements about errors and the host's duties (60_exceptions.md). The status an instruction ends with is
known from the instruction and the table alone; `exec_resStatus` says so once, and R201 and R202 are read off it. -/

namespace Sys2Proof

namespace Machine

/-! ## The status an instruction ends with -/

/-- The status of a request whose encoder gave a pattern or raised (R107). -/
def encodingStatus : Except Status Pattern → Status
  | .ok _ => .ok
  | .error st => st

/-- The status after a check of the parameters (R146, R153). -/
def checkStatus (invalid : Bool) : Status := if invalid then .invalidParameters else .ok

theorem checkStatus_eq_invalidParameters {invalid : Bool} :
    checkStatus invalid = .invalidParameters ↔ invalid = true := by
  cases invalid <;> decide

theorem checkStatus_ne_noPatternDefined (invalid : Bool) : checkStatus invalid ≠ .noPatternDefined := by
  cases invalid <;> decide

/-- The status RESOLVE of an entry ends with, where it completes (R173 to R176). -/
def resolveStatus : Entry → Status
  | .empty => .noPatternDefined
  | .nec _ _ _ => .ok
  | .sirc _ _ _ unit _ => checkStatus (unitTimeInvalid unit.toNat)
  | .captured _ _ _ => .ok

/-- The status an instruction ends with under a table, where it completes (R201, R202). -/
def endStatus (table : Table) : Instr → Status
  | .resolve key => resolveStatus (table.lookup key.code)
  | .encNec _ _ => .ok
  | .encSirc20 _ _ _ opd => checkStatus (unitTimeInvalid opd.toNat)
  | .encSirc _ _ opc opd => checkStatus (bitCountsInvalid opc.toInt opd.toInt)

theorem encodingStatus_encSirc20Pattern (opa opb opc opd : Word) :
    encodingStatus (encSirc20Pattern opa opb opc opd) = checkStatus (unitTimeInvalid opd.toNat) :=
  apply_ite encodingStatus _ _ _

theorem encodingStatus_encSircPattern (opa opb opc opd : Word) :
    encodingStatus (encSircPattern opa opb opc opd) = checkStatus (bitCountsInvalid opc.toInt opd.toInt) := by
  rw [← bitCount_eq_toInt, ← bitCount_eq_toInt]
  exact apply_ite encodingStatus _ _ _

theorem finish_resStatus {st : Status} {f : Word} {p : Pattern} {s t : State} (h : finish st f p s = .next t) :
    t.resStatus = st.code := by
  rw [(finish_next h).1, State.writeResults_resStatus]

theorem complete_resStatus {f : Word} {r : Except Status Pattern} {s t : State} (h : complete f r s = .next t) :
    t.resStatus = (encodingStatus r).code := by
  cases r with
  | ok p => exact finish_resStatus h
  | error st => exact finish_resStatus h

theorem resolveEntry_resStatus {e : Entry} {s t : State} (h : resolveEntry e s = .next t) :
    t.resStatus = (resolveStatus e).code := by
  cases e with
  | empty => exact finish_resStatus h
  | nec addr cmd carrier => exact finish_resStatus h
  | sirc cmd dev ext unit carrier => rw [complete_resStatus h, encodingStatus_encSirc20Pattern, resolveStatus]
  | captured clen cdur carrier => exact finish_resStatus h

/-- RES_STATUS after an instruction that completes. -/
theorem exec_resStatus {i : Instr} {s t : State} (h : exec i s = .next t) :
    t.resStatus = (endStatus s.config.table i).code := by
  cases i with
  | resolve key => exact resolveEntry_resStatus h
  | encNec a b => exact finish_resStatus h
  | encSirc20 a b c d => rw [complete_resStatus h, encodingStatus_encSirc20Pattern, endStatus]
  | encSirc a b c d => rw [complete_resStatus h, encodingStatus_encSircPattern, endStatus]

/-- No two statuses share a code (R80), so the code the host reads says which status an instruction ended with. -/
theorem Status.code_inj {st st' : Status} : st.code = st'.code ↔ st = st' := by
  cases st <;> cases st' <;> decide

theorem exec_resStatus_toNat_eq_iff {i : Instr} {s t : State} (h : exec i s = .next t) (st : Status) :
    t.resStatus.toNat = st.code.toNat ↔ endStatus s.config.table i = st := by
  rw [BitVec.toNat_inj, exec_resStatus h, Status.code_inj]

/-! ## The errors, one by one -/

theorem resolveStatus_eq_noPatternDefined {e : Entry} : resolveStatus e = .noPatternDefined ↔ e = .empty := by
  cases e with
  | sirc cmd dev ext unit carrier => simp [resolveStatus, checkStatus_ne_noPatternDefined]
  | _ => simp [resolveStatus]

theorem resolveStatus_eq_invalidParameters {e : Entry} : resolveStatus e = .invalidParameters ↔
    ∃ cmd dev ext unit carrier, e = .sirc cmd dev ext unit carrier ∧ (unit.toNat = 0 ∨ 0x3FFFFFFF < unit.toNat) := by
  cases e with
  | sirc cmd dev ext unit carrier => simp [resolveStatus, checkStatus_eq_invalidParameters, unitTimeInvalid_eq_true]
  | _ => simp [resolveStatus]

/-- NO_PATTERN_DEFINED is RESOLVE's alone, for an EMPTY slot (R202). -/
theorem endStatus_eq_noPatternDefined {table : Table} {i : Instr} : endStatus table i = .noPatternDefined ↔
    ∃ key, i = .resolve key ∧ table.lookup key.code = .empty := by
  cases i with
  | resolve key => simp [endStatus, resolveStatus_eq_noPatternDefined]
  | encNec a b => simp [endStatus]
  | encSirc20 a b c d => simp [endStatus, checkStatus_ne_noPatternDefined]
  | encSirc a b c d => simp [endStatus, checkStatus_ne_noPatternDefined]

/-- INVALID_PARAMETERS has the three cases of R201. -/
theorem endStatus_eq_invalidParameters {table : Table} {i : Instr} : endStatus table i = .invalidParameters ↔
    (∃ a b c d, i = .encSirc a b c d ∧ (c.toInt - d.toInt < 0 ∨ d.toInt < 0 ∨ 64 < c.toInt)) ∨
    (∃ a b c d, i = .encSirc20 a b c d ∧ (d.toNat = 0 ∨ 0x3FFFFFFF < d.toNat)) ∨
    (∃ key cmd dev ext unit carrier, i = .resolve key ∧
      table.lookup key.code = .sirc cmd dev ext unit carrier ∧ (unit.toNat = 0 ∨ 0x3FFFFFFF < unit.toNat)) := by
  cases i with
  | resolve key => simp [endStatus, resolveStatus_eq_invalidParameters]
  | encNec a b => simp [endStatus]
  | encSirc20 a b c d => simp [endStatus, checkStatus_eq_invalidParameters, unitTimeInvalid_eq_true]
  | encSirc a b c d => simp [endStatus, checkStatus_eq_invalidParameters, bitCountsInvalid_eq_true]

/-! ## Waiting and transmitting -/

/-- A step of a core whose host has no move left (R230; log 1). -/
theorem step_nil {s : State} (hc : s.config.wf = true) (hs : s.script = []) : step s = .next s := by
  unfold step turn
  rw [if_pos hc, hs]

/-- There is something to hand over exactly where R218 allows it. -/
theorem State.handOff_isSome {s : State} :
    s.handOff.isSome = true ↔ s.resStatus.toNat = 1 ∧ s.resCarrier ≠ 0 := by
  have hok : s.resStatus.toNat = 1 ↔ s.resStatus = Status.ok.code := BitVec.toNat_inj (y := Status.ok.code)
  simp [State.handOff, hok]

end Machine

/-! ## The obligations -/

open Machine

/-- Settles O7: the decoder rejects a word that is not legal, and what is rejected raises. -/
theorem reservedEncodingCompletes : Obligations.ReservedEncodingCompletes := by
  intro s hn hreq hlegal
  have hrejected : ¬ ∃ i, decode s.config.nApp s.request = .ok i :=
    mt (decoderAcceptsExactlyLegalWords s.config.nApp s.request hn).mp hlegal
  cases hd : decode s.config.nApp s.request with
  | ok i => exact absurd ⟨i, hd⟩ hrejected
  | error why =>
    exact ⟨_, issue_of_decode_error hreq hd, errorIs_writeResults (by decide) s _ _,
      s.writeResults_onlyResultsChanged _ _ _⟩

/-- Settles O27: status 3 is NO_PATTERN_DEFINED. -/
theorem noPatternDefinedExactly : Obligations.NoPatternDefinedExactly :=
  fun _ _ _ h => (exec_resStatus_toNat_eq_iff h .noPatternDefined).trans endStatus_eq_noPatternDefined

/-- Settles O28: status 2 is INVALID_PARAMETERS. -/
theorem invalidParametersExactly : Obligations.InvalidParametersExactly :=
  fun _ _ _ h => (exec_resStatus_toNat_eq_iff h .invalidParameters).trans endStatus_eq_invalidParameters

/-- Settles O29: a request that goes on is one completion, an error clears what it writes, and no instruction looks at
what a completion writes. -/
theorem errorAffectsNothingElse : Obligations.ErrorAffectsNothingElse := by
  intro s t h hstatus
  obtain ⟨st, f, p, hcomp⟩ := issue_next h
  obtain rfl := hcomp.writes
  have hst : st ≠ .ok := by
    rintro rfl
    exact hstatus rfl
  exact ⟨errorIs_writeResults hst s f p, s.writeResults_onlyResultsChanged st f p, exec_writeResults s st f p⟩

/-- Settles O44: the step of a core whose host has no move left. -/
theorem waitingChangesNothing : Obligations.WaitingChangesNothing :=
  fun _ hwf hscript => step_nil hwf hscript

/-- Settles O45: the move goes on exactly where there is something to hand over. -/
theorem transmitOnlyAfterSuccess : Obligations.TransmitOnlyAfterSuccess := by
  intro s rest ⟨hwf, hscript⟩
  rw [step_cons hwf hscript, ← State.handOff_isSome]
  exact ⟨fun hsome => if_pos hsome, fun hnone => if_neg hnone⟩

end Sys2Proof
end

section
/-! # The family of reset and hazards: a request that the host writes and issues

The proof of the statement about running a request from reset (70_reset_and_hazards.md). The host's five writes leave
the request loaded (R235), the step after them issues it (R233), and what is issued is the instruction its words decode
to. -/

namespace Sys2Proof

namespace Machine

/-! ## The port registers after the five writes -/

@[simp] theorem State.writeRequest_config (s : State) (r : Request) : (s.writeRequest r).config = s.config := rfl

@[simp] theorem State.writeRequest_request (s : State) (r : Request) : (s.writeRequest r).request = r := rfl

/-- Once the host has written a request, no port register is unwritten (R235). -/
theorem State.writeRequest_written (s : State) (r : Request) (p : Port) :
    ((s.writeRequest r).port p).written = true := by
  cases p <;> rfl

/-! ## The moves that issue a request -/

/-- A write of a port register leaves the host's script alone, so it does not matter which of the two is set first. -/
theorem State.setScript_writePort (s : State) (l l' : List HostAction) (p : Port) (v : Word) :
    ({ ({ s with script := l } : State).writePort p v with script := l' } : State) =
      ({ s with script := l' } : State).writePort p v := by
  cases p <;> rfl

/-- The steps by which the host makes the writes of a list, one after the other. -/
theorem run_writes {ws : List (Port × Word)} {rest : List HostAction} {s : State} (hc : s.config.wf = true)
    (hs : s.script = ws.map (fun w => .write w.1 w.2) ++ rest) (n : Nat) :
    Host.Core.run Sys2Proof.core (n + ws.length) s =
      Host.Core.run Sys2Proof.core n (ws.foldl (fun t w => t.writePort w.1 w.2) { s with script := rest }) := by
  induction ws generalizing s with
  | nil =>
    obtain rfl : s.script = rest := hs
    rfl
  | cons w ws ih =>
    refine (run_succ (step_write hc hs)).trans ((ih (by simpa using hc) (by simp)).trans ?_)
    rw [State.setScript_writePort]
    rfl

/-- The first five moves are the writes: they leave the request loaded, its issue the host's next move. -/
theorem run_requestMoves {s : State} {r : Request} {rest : List HostAction} (hc : s.config.wf = true)
    (hs : s.script = requestMoves r ++ rest) (n : Nat) : Host.Core.run Sys2Proof.core (n + 5) s =
      Host.Core.run Sys2Proof.core n (({ s with script := rest } : State).loadRequest r) :=
  run_writes (ws := [(.req, r.req), (.opa, r.opa), (.opb, r.opb), (.opc, r.opc), (.opd, r.opd)])
    (rest := .issue :: rest) hc hs n

/-- The step of a loaded request is its issue. -/
theorem step_loadRequest {s : State} (hc : s.config.wf = true) (r : Request) :
    step (s.loadRequest r) = issue (s.writeRequest r) :=
  step_cons (s := s.loadRequest r) hc rfl

/-- A written request is the instruction its words decode to, whatever the port registers held before (R21, R235). -/
theorem issue_writeRequest {s : State} {r : Request} {i : Instr} (h : decode s.config.nApp r = .ok i) :
    issue (s.writeRequest r) = exec i (s.writeRequest r) :=
  issue_of_decode (s.writeRequest_written r .req) (by simpa using h) fun p _ => s.writeRequest_written r p

end Machine

/-! ## The obligation -/

open Machine

/-- Settles O48: five steps load the request, the sixth issues it, and under a well-formed configuration its instruction
completes. -/
theorem requestRunsFromReset : Obligations.RequestRunsFromReset := by
  intro c r i hwf hdecode
  obtain ⟨t, hexec, -⟩ := everyInstructionCompletes i ((State.resetWith c).writeRequest r) hwf
  have hstep : step ((State.resetWith c).loadRequest r) = .next t :=
    ((step_loadRequest hwf r).trans (issue_writeRequest hdecode)).trans hexec
  refine ⟨t, ?_, hexec⟩
  calc Host.Core.run Sys2Proof.core 6 { State.resetWith c with script := requestMoves r }
    _ = Host.Core.run Sys2Proof.core 1 ((State.resetWith c).loadRequest r) :=
        run_requestMoves (rest := []) hwf (List.append_nil _).symm 1
    _ = .next t := run_succ hstep

end Sys2Proof
end
